-- ==== Sys2Proof/Word.lean ====
section
/-! DEFINITION. The words of the interface and of the datapath (00_scope.md R11, R12). -/
namespace Sys2Proof

/-- One byte of the message, of the block buffer or of the digest (00_scope.md R5, R8). -/
abbrev Byte := BitVec 8

/-- A command word `cmd[31:0]` (00_scope.md R11, 30_encoding.md R70). -/
abbrev Cmd := BitVec 32

/-- The data operand `din[63:0]` (00_scope.md R11, 30_encoding.md R70). -/
abbrev Din := BitVec 64

/-- The data part of a response, `data[63:0]` (00_scope.md R11, 45_driver.md R220). -/
abbrev Data := BitVec 64

/-- What the host sends for one command: the command word and the data operand (30_encoding.md R70).
The core has no memory and fetches nothing (20_memory.md R66), so this pair is a whole instruction. -/
structure Request where
  cmd : Cmd
  din : Din
  deriving DecidableEq, Repr

end Sys2Proof
end

