-- ==== Sys2Proof/Machine/Bytes.lean ====
section
/-! DEFINITION. Bytes and words: the big-endian primitives of 00_scope.md R14. -/
namespace Sys2Proof.Machine

/-- `bytes_be(n, x)`: the `n` bytes of `x`, most significant first (00_scope.md R14). -/
def bytesBe : Nat → Nat → List Byte
  | 0, _ => []
  | n + 1, x => BitVec.ofNat 8 (x >>> (8 * n)) :: bytesBe n x

/-- `word_be(s)`: the number that the byte sequence `s` spells, most significant byte first
(00_scope.md R14). -/
def wordBe (s : List Byte) : Nat :=
  s.foldl (fun acc b => acc * 256 + b.toNat) 0

/-- `zeros(n)` (00_scope.md R14). -/
def zeros (n : Nat) : List Byte := List.replicate n 0

/-- `s[lo .. lo + n − 1]`. -/
def slice (s : List Byte) (lo n : Nat) : List Byte := (s.drop lo).take n

end Sys2Proof.Machine
end

