-- ==== Sys2Proof/Config.lean ====
section
/-! DEFINITION. What one core fixes: its two variants, the names of its readable registers, and the named
values of the storage that the spec leaves unspecified at reset. -/
namespace Sys2Proof

/-- The two variants in scope (00_scope.md R3); no other variant has an encoding (30_encoding.md R75). -/
inductive Variant where
  | sha256
  | sha512
  deriving DecidableEq, Repr

/-- `W`, the word width in bits (00_scope.md R10). -/
abbrev Variant.W : Variant → Nat
  | .sha256 => 32
  | .sha512 => 64

/-- The four registers of the READ_REG map (10_state.md R35). -/
inductive Reg where
  | status
  | lenLo
  | lenHi
  | errcmd
  deriving DecidableEq, Repr

/-- The value each `H[i]` holds after reset. DESIGN CHOICE (log 1), unsafe by itself: 10_state.md R39 says
"unspecified", and 92_eei_decisions.md D16 says never zero, so a pattern that is neither zero nor `H0`. -/
def Config.resetWord : BitVec 32 := 0xa5a5a5a5

/-- The value each byte of `BUF` holds after reset. DESIGN CHOICE (log 2), unsafe by itself: 10_state.md R39
says "unspecified". -/
def Config.resetByte : Byte := 0xa5

end Sys2Proof
end

