-- ==== Sys2Proof/Machine/State.lean ====
section
/-! DEFINITION. The architectural state (10_state.md R20), the host's side of the interface, and the state
after reset (10_state.md R39). -/
namespace Sys2Proof.Machine

/-- The command-sequencing state PHASE (10_state.md R30). -/
inductive Phase where
  | idle
  | absorbing
  | done
  | error
  deriving DecidableEq, Repr

/-- The cause codes of ERRCODE (60_exceptions.md R261). Codes 5 to 7 are never written (U6) and have no
constructor. -/
inductive ErrCode where
  | none
  | illegalCmd
  | sequence
  | lengthOverflow
  | range
  deriving DecidableEq, Repr

/-- A response: `ok` and `data` (45_driver.md R220). -/
structure Response where
  ok : Bool
  data : Data
  deriving DecidableEq, Repr

/-- What the host can do to the core: issue a command (30_encoding.md R70), or assert the reset input, between
commands or with a command in progress (70_reset_and_hazards.md R290, log 9). -/
inductive HostEvent where
  | command (r : Request)
  | reset (inProgress : Option Request)
  deriving DecidableEq, Repr

/-- Eight words of the variant's width: the hash state (10_state.md R21, R22). -/
abbrev Words (v : Variant) := Vector (BitVec v.W) 8

/-- The state. The first nine fields are the spec's, and R20 says there are no others; the last two are the
host's side of the interface (70_reset_and_hazards.md R300, log 4). -/
structure State where
  /-- VARIANT (10_state.md R28). -/
  variant : Variant
  /-- `H[0..7]`, kept as `W`-bit words of the current variant, as R22 allows (log 3). -/
  H : Words variant
  /-- `BUF[0..127]` (10_state.md R24). -/
  buf : Vector Byte 128
  /-- FILL, 7 bits (10_state.md R25). -/
  fill : BitVec 7
  /-- CNT, 125 bits (10_state.md R26). -/
  cnt : BitVec 125
  /-- PHASE (10_state.md R30). -/
  phase : Phase
  /-- PADBLKS, 2 bits (10_state.md R29). -/
  padblks : BitVec 2
  /-- ERRCODE (10_state.md R31). -/
  errcode : ErrCode
  /-- ERRCMD, 32 bits (10_state.md R32). -/
  errcmd : Cmd
  /-- What the host has still to do, first one first. -/
  pending : List HostEvent
  /-- The responses returned so far, first one first. -/
  responses : List Response
  deriving DecidableEq, Repr

/-- Reasons the model stops with a fault. The faults of the spec (60_exceptions.md R263) are no reason to
stop: they are next states. -/
inductive Fault where
  /-- Raised by ABSORB and FINALIZE where a precondition that the spec puts on the segmenter or on `pad_tail`
  does not hold (10_state.md R25, 20_memory.md R51, 42_padding.md R131, 43_compression.md R181, U10; log 8).
  Safe: the spec gives no result there, and no run from reset reaches it. -/
  | preconditionViolated
  deriving DecidableEq, Repr

/-- Reasons an instruction has no meaning. -/
inductive Refusal where
  /-- Raised by an arm of `exec` whose instruction is not modelled; no arm raises it. Safe. -/
  | notModelled (mnemonic : String)
  deriving DecidableEq, Repr

/-- The outcome of a command. -/
abbrev Result := Host.Outcome State Fault Refusal

/-- The state right after reset (10_state.md R39, 70_reset_and_hazards.md R290). `H` and `buf`, which the
spec leaves unspecified, hold the named values of Config (logs 1 and 2). -/
def State.reset : State where
  variant := .sha256
  H := Vector.replicate 8 Config.resetWord
  buf := Vector.replicate 128 Config.resetByte
  fill := 0
  cnt := 0
  phase := .idle
  padblks := 0
  errcode := .none
  errcmd := 0
  pending := []
  responses := []

end Sys2Proof.Machine
end

