-- ==== Sys2Proof/Machine/Compression.lean ====
section
/-! DEFINITION. The compression core: word operations, message schedule, round function and `compress`
(43_compression.md). Every `+` on words is modulo `2^W` (R168). -/
namespace Sys2Proof.Machine

/-- `ROTR(n, x)` (43_compression.md R160). -/
def rotr {w : Nat} (n : Nat) (x : BitVec w) : BitVec w := (x >>> n) ||| (x <<< (w - n))

/-- `SHR(n, x)` (43_compression.md R161). -/
def shr {w : Nat} (n : Nat) (x : BitVec w) : BitVec w := x >>> n

/-- `Ch(x, y, z)` (43_compression.md R162). -/
def ch {w : Nat} (x y z : BitVec w) : BitVec w := (x &&& y) ^^^ (~~~x &&& z)

/-- `Maj(x, y, z)` (43_compression.md R163). -/
def maj {w : Nat} (x y z : BitVec w) : BitVec w := (x &&& y) ^^^ (x &&& z) ^^^ (y &&& z)

/-- `Σ0` (43_compression.md R164). -/
def bigSigma0 (v : Variant) (x : BitVec v.W) : BitVec v.W :=
  rotr v.S0.1 x ^^^ rotr v.S0.2.1 x ^^^ rotr v.S0.2.2 x

/-- `Σ1` (43_compression.md R165). -/
def bigSigma1 (v : Variant) (x : BitVec v.W) : BitVec v.W :=
  rotr v.S1.1 x ^^^ rotr v.S1.2.1 x ^^^ rotr v.S1.2.2 x

/-- `σ0` (43_compression.md R166). -/
def smallSigma0 (v : Variant) (x : BitVec v.W) : BitVec v.W :=
  rotr v.s0.1 x ^^^ rotr v.s0.2.1 x ^^^ shr v.s0.2.2 x

/-- `σ1` (43_compression.md R167). -/
def smallSigma1 (v : Variant) (x : BitVec v.W) : BitVec v.W :=
  rotr v.s1.1 x ^^^ rotr v.s1.2.1 x ^^^ shr v.s1.2.2 x

/-- Schedule words 0..15: the big-endian words of the block (43_compression.md R170, 20_memory.md R53). -/
def blockWords (v : Variant) (blk : List Byte) : List (BitVec v.W) :=
  (List.range 16).map fun t => BitVec.ofNat v.W (wordBe (slice blk (v.WB * t) v.WB))

/-- `w[t]` from the words before it, `t` being their number (43_compression.md R171). -/
def scheduleWord (v : Variant) (w : List (BitVec v.W)) : BitVec v.W :=
  smallSigma1 v (w.getD (w.length - 2) 0) + w.getD (w.length - 7) 0
    + smallSigma0 v (w.getD (w.length - 15) 0) + w.getD (w.length - 16) 0

/-- `n` further schedule words (43_compression.md R171). -/
def extendSchedule (v : Variant) : Nat → List (BitVec v.W) → List (BitVec v.W)
  | 0, w => w
  | n + 1, w => extendSchedule v n (w ++ [scheduleWord v w])

/-- The message schedule `w[0 .. NR−1]` (43_compression.md R170, R171). -/
def schedule (v : Variant) (blk : List Byte) : List (BitVec v.W) :=
  extendSchedule v (v.NR - 16) (blockWords v blk)

/-- The eight working variables (43_compression.md R172). They live inside one evaluation of `compress`
(10_state.md R37). -/
structure Working (w : Nat) where
  a : BitVec w
  b : BitVec w
  c : BitVec w
  d : BitVec w
  e : BitVec w
  f : BitVec w
  g : BitVec w
  h : BitVec w
  deriving DecidableEq, Repr

/-- `T1` (43_compression.md R173). -/
def t1 (v : Variant) (x : Working v.W) (k w : BitVec v.W) : BitVec v.W :=
  x.h + bigSigma1 v x.e + ch x.e x.f x.g + k + w

/-- `T2` (43_compression.md R174). -/
def t2 (v : Variant) (x : Working v.W) : BitVec v.W := bigSigma0 v x.a + maj x.a x.b x.c

/-- One round, all eight assignments at once (43_compression.md R175). The pair is `(K[t], w[t])`. -/
def roundUpdate (v : Variant) (x : Working v.W) (kw : BitVec v.W × BitVec v.W) : Working v.W where
  a := t1 v x kw.1 kw.2 + t2 v x
  b := x.a
  c := x.b
  d := x.c
  e := x.d + t1 v x kw.1 kw.2
  f := x.e
  g := x.f
  h := x.g

/-- The working variables at the start, `a` from `H[0]` to `h` from `H[7]` (43_compression.md R172). -/
def startWorking (v : Variant) (H : Words v) : Working v.W :=
  ⟨H[0], H[1], H[2], H[3], H[4], H[5], H[6], H[7]⟩

/-- The rounds `t = 0 .. NR−1` in increasing order (43_compression.md R176). -/
def runRounds (v : Variant) (x : Working v.W) (w : List (BitVec v.W)) : Working v.W :=
  ((K v).zip w).foldl (roundUpdate v) x

/-- The state update `H'[i] = H[i] + v_i` (43_compression.md R177). -/
def feedForward (v : Variant) (H : Words v) (x : Working v.W) : Words v :=
  #v[H[0] + x.a, H[1] + x.b, H[2] + x.c, H[3] + x.d, H[4] + x.e, H[5] + x.f, H[6] + x.g, H[7] + x.h]

/-- `compress(v, H, blk)` (43_compression.md R180): total and without failure (R181). Its callers give it
blocks of exactly `B` bytes (41_segmenter.md R103, 42_padding.md R131; log 14). -/
def compress (v : Variant) (H : Words v) (blk : List Byte) : Words v :=
  feedForward v H (runRounds v (startWorking v H) (schedule v blk))

end Sys2Proof.Machine
end

