-- ==== Sys2Proof/Syntax.lean ====
section
/-! DEFINITION. The instructions: the five commands of the host interface (00_scope.md R4), one constructor
for each row of spec/opcode_table.json. Each operand has the type of its field (30_encoding.md R71, R80). -/
namespace Sys2Proof

/-- A decoded command. -/
inductive Instr where
  /-- INIT: select a variant and start a new computation (45_driver.md R222). -/
  | init (V : Variant)
  /-- ABSORB: append `NM1 + 1` message bytes taken from `din` (41_segmenter.md R101). `din` is an operand of
  this command alone (30_encoding.md R70, R72, R82). -/
  | absorb (NM1 : BitVec 3) (din : Din)
  /-- FINALIZE: fold the padding tail (42_padding.md R140). -/
  | finalize
  /-- READ_DIGEST: read digest bytes `8K .. 8K+7` (45_driver.md R226). -/
  | readDigest (K : BitVec 3)
  /-- READ_REG: read a status or counter register (45_driver.md R230). -/
  | readReg (REG : Reg)
  deriving DecidableEq, Repr

end Sys2Proof
end

