-- ==== Sys2Proof/Decode.lean ====
section
/-! DEFINITION. The decoder (30_encoding.md R73), total on every command word, and after it the encoder,
written from the format and field tables (30_encoding.md R71, R74 to R79). -/
namespace Sys2Proof

/-- `V = cmd[16]`: 0 is SHA-256, 1 is SHA-512 (30_encoding.md R75). -/
def Variant.ofCode (b : BitVec 1) : Variant :=
  if b = 0#1 then .sha256 else .sha512

/-- The encoding of a variant in one bit (30_encoding.md R75, 10_state.md R28). -/
def Variant.code : Variant → BitVec 1
  | .sha256 => 0#1
  | .sha512 => 1#1

/-- The register that `REG = cmd[17:16]` selects; all four values are defined (30_encoding.md R78,
10_state.md R35). -/
def Reg.ofCode (b : BitVec 2) : Reg :=
  if b = 0#2 then .status else if b = 1#2 then .lenLo else if b = 2#2 then .lenHi else .errcmd

/-- The register number (10_state.md R35). -/
def Reg.code : Reg → BitVec 2
  | .status => 0#2
  | .lenLo => 1#2
  | .lenHi => 2#2
  | .errcmd => 3#2

/-- `decode` (30_encoding.md R73). `none` is ILLEGAL: opcode 0x00, opcodes 0x06 to 0xFF, or a reserved bit
set (R81). Only ABSORB keeps `din` (R82). -/
def decode (r : Request) : Option Instr :=
  if r.cmd &&& 0xFFFEFFFF#32 = 0x01000000#32 then some (.init (Variant.ofCode (r.cmd.extractLsb' 16 1)))
  else if r.cmd &&& 0xFFF8FFFF#32 = 0x02000000#32 then some (.absorb (r.cmd.extractLsb' 16 3) r.din)
  else if r.cmd = 0x03000000#32 then some .finalize
  else if r.cmd &&& 0xFFF8FFFF#32 = 0x04000000#32 then some (.readDigest (r.cmd.extractLsb' 16 3))
  else if r.cmd &&& 0xFFFCFFFF#32 = 0x05000000#32 then some (.readReg (Reg.ofCode (r.cmd.extractLsb' 16 2)))
  else none

/-- The opcode byte `OPC` (30_encoding.md R74). -/
def Instr.opc : Instr → BitVec 8
  | .init _ => 0x01
  | .absorb _ _ => 0x02
  | .finalize => 0x03
  | .readDigest _ => 0x04
  | .readReg _ => 0x05

/-- The argument byte `ARG`, undefined bits 0 (30_encoding.md R71). -/
def Instr.arg : Instr → BitVec 8
  | .init V => 0#7 ++ V.code
  | .absorb NM1 _ => 0#5 ++ NM1
  | .finalize => 0#8
  | .readDigest K => 0#5 ++ K
  | .readReg REG => 0#6 ++ REG.code

/-- The command word of an instruction: `OPC ‖ ARG ‖ RSV` with `RSV = 0` (30_encoding.md R71). -/
def Instr.cmd (i : Instr) : Cmd := i.opc ++ i.arg ++ 0#16

/-- The data operand of an instruction; every command but ABSORB ignores it (30_encoding.md R82), and 0 stands
for it here. -/
def Instr.din : Instr → Din
  | .init _ => 0
  | .absorb _ din => din
  | .finalize => 0
  | .readDigest _ => 0
  | .readReg _ => 0

/-- The words of an instruction. -/
def encode (i : Instr) : Request := ⟨i.cmd, i.din⟩

/-- An instruction's bits as spec/opcode_table.json numbers them, made into a request: bits 31..0 are the
command word and the bits after them the data operand, to which the table gives no bits (log 6). Bits from
`nbits` up are 0. -/
def requestOfBits (nbits w : Nat) : Request :=
  ⟨BitVec.ofNat 32 (w % 2 ^ nbits), BitVec.ofNat 64 ((w % 2 ^ nbits) >>> 32)⟩

/-- The instruction the decoder reads from the bits of a row of spec/opcode_table.json. -/
def decodeTableWord (nbits w : Nat) : Option Instr := decode (requestOfBits nbits w)

end Sys2Proof
end

