-- ==== Sys2Proof/Machine/Flags.lean ====
section
/-! DEFINITION. The status bits: the encodings of PHASE, VARIANT and ERRCODE, and the registers READ_REG
returns (10_state.md R30, R31, R33 to R36). The core has no condition codes (R36). -/
namespace Sys2Proof.Machine

/-- The 2-bit encoding of PHASE (10_state.md R30). -/
def Phase.code : Phase → BitVec 2
  | .idle => 0#2
  | .absorbing => 1#2
  | .done => 2#2
  | .error => 3#2

/-- The 3-bit cause code (60_exceptions.md R261). -/
def ErrCode.code : ErrCode → BitVec 3
  | .none => 0#3
  | .illegalCmd => 1#3
  | .sequence => 2#3
  | .lengthOverflow => 3#3
  | .range => 4#3

/-- STATUS, assembled from the state on each read (10_state.md R33). -/
def status (s : State) : Data :=
  (s.fill ++ 0b000000#6 ++ s.padblks ++ 0b0#1 ++ s.errcode.code ++ 0b0#1 ++ s.variant.code
    ++ s.phase.code).setWidth 64

/-- LEN_LO (10_state.md R34). -/
def lenLo (s : State) : Data := s.cnt.extractLsb' 0 64

/-- LEN_HI (10_state.md R34). -/
def lenHi (s : State) : Data := (s.cnt.extractLsb' 64 61).setWidth 64

/-- The READ_REG register map (10_state.md R35). -/
def regValue (s : State) : Reg → Data
  | .status => status s
  | .lenLo => lenLo s
  | .lenHi => lenHi s
  | .errcmd => s.errcmd.setWidth 64

end Sys2Proof.Machine
end

