-- ==== Sys2Proof/Machine/Operands.lean ====
section
/-! DEFINITION. Operands: the byte count and the message bytes of ABSORB, the block-buffer prefix, and the
digest bytes READ_DIGEST selects (30_encoding.md R76, R79, R80; 20_memory.md R51, R52, R55). -/
namespace Sys2Proof.Machine

/-- `N = zext(NM1) + 1`, in `1..8` (30_encoding.md R76). -/
def byteCount (NM1 : BitVec 3) : Nat := NM1.toNat + 1

/-- Message byte `i` of an ABSORB, `din[63−8i : 56−8i]` (20_memory.md R52). -/
def dinByte (din : Din) (i : Nat) : Byte := din.extractLsb' (56 - 8 * i) 8

/-- The `N` message bytes of an ABSORB in message order; the low `8 − N` bytes of `din` are ignored
(20_memory.md R52, 30_encoding.md R82). -/
def messageBytes (NM1 : BitVec 3) (din : Din) : List Byte :=
  (List.range (byteCount NM1)).map (dinByte din)

/-- `BUF[0 .. n−1]` (20_memory.md R51). -/
def State.bufPrefix (s : State) (n : Nat) : List Byte := s.buf.toList.take n

/-- `digest(v, H)`: the words of `H` in index order, each big-endian (45_driver.md R224, 20_memory.md R55). -/
def digest (v : Variant) (H : Words v) : List Byte :=
  H.toList.flatMap fun x => bytesBe v.WB x.toNat

/-- Digest group `k`: digest bytes `8k .. 8k+7` as one big-endian value (45_driver.md R226). -/
def digestGroup (v : Variant) (H : Words v) (k : Nat) : Data :=
  BitVec.ofNat 64 (wordBe (slice (digest v H) (8 * k) 8))

end Sys2Proof.Machine
end

