-- ==== Sys2Proof/Machine/Ops.lean ====
section
/-! DEFINITION. The named operations over the state: the response, taking a fault, the reset event, and the
updates of the segmenter, of the padding transform and of the driver. -/
namespace Sys2Proof.Machine

/-- `respond(ok, data)`: the command's one response (45_driver.md R220), after the earlier ones
(20_memory.md R62). -/
def State.respond (s : State) (ok : Bool) (data : Data) : State :=
  { s with responses := s.responses ++ [⟨ok, data⟩] }

/-- The fault record: PHASE, ERRCODE and ERRCMD as 60_exceptions.md R263 writes them. -/
def State.recordFault (s : State) (code : ErrCode) (cmd : Cmd) : State :=
  { s with phase := .error, errcode := code, errcmd := cmd }

/-- `raise Fault(code)` during command `cmd` (60_exceptions.md R263): the record is written unless one stands
already (R264), the response is `(0, 0)`, and nothing else changes. There is no return from it: INIT and
reset leave ERROR (R267). -/
def raiseFault (code : ErrCode) (cmd : Cmd) (s : State) : State :=
  (if s.phase = .error then s else s.recordFault code cmd).respond false 0

/-- A command word that does not decode (30_encoding.md R73, R81): ILLEGAL_CMD in every phase. -/
def illegalCommand (cmd : Cmd) (s : State) : Result := .next (raiseFault .illegalCmd cmd s)

/-- The reset event (70_reset_and_hazards.md R290): every element of the core as after reset; no response, and
no effect of a command in progress. What the host has still to do, and the responses it already has, are the
host's (log 9). -/
def resetEvent (s : State) : Result :=
  .next { State.reset with pending := s.pending, responses := s.responses }

/-- `BUF[FILL] <- b` and `CNT <- CNT + 1` (41_segmenter.md R102). -/
def State.storeByte (s : State) (b : Byte) : State :=
  { s with buf := s.buf.set s.fill.toNat b s.fill.isLt, cnt := s.cnt + 1 }

/-- `FILL <- f`. -/
def State.withFill (s : State) (f : BitVec 7) : State := { s with fill := f }

/-- `H <- compress(v, H, blk)` with `v = VARIANT` (43_compression.md R180). -/
def State.foldBlock (s : State) (blk : List Byte) : State :=
  { s with H := compress s.variant s.H blk }

/-- `fold_full_block(v)` (41_segmenter.md R103). -/
def State.foldFullBlock (s : State) : State :=
  (s.foldBlock (s.bufPrefix s.variant.B)).withFill 0

/-- `absorb_byte(v, b)` (41_segmenter.md R102). FILL reaches `B` only inside this step (10_state.md R25), so
the 7-bit register is compared before it is written (log 19). -/
def State.absorbByte (s : State) (b : Byte) : State :=
  if s.fill.toNat + 1 = s.variant.B then (s.storeByte b).foldFullBlock
  else (s.storeByte b).withFill (s.fill + 1)

/-- The bytes of one ABSORB, in message order (41_segmenter.md R101). -/
def State.absorbBytes (s : State) (bs : List Byte) : State := bs.foldl State.absorbByte s

/-- `pad_tail(v, rem, L)`: the one or two tail blocks (42_padding.md R131). -/
def padTail (v : Variant) (rem : List Byte) (L : Nat) : List (List Byte) :=
  if rem.length + 1 + v.LF ≤ v.B then
    [rem ++ [0x80] ++ zeros (v.B - v.LF - rem.length - 1) ++ bytesBe v.LF (8 * L)]
  else
    [rem ++ [0x80] ++ zeros (v.B - rem.length - 1), zeros (v.B - v.LF) ++ bytesBe v.LF (8 * L)]

/-- The preconditions of `pad_tail` on the remainder length and the count (42_padding.md R131). -/
def padPrecondition (v : Variant) (r L : Nat) : Bool :=
  decide (r < v.B) && decide (r = L % v.B) && decide (L ≤ v.MAXB)

/-- The tail of the open message: `pad_tail(v, BUF[0 .. FILL−1], CNT)` (42_padding.md R140). -/
def State.tail (s : State) : List (List Byte) :=
  padTail s.variant (s.bufPrefix s.fill.toNat) s.cnt.toNat

/-- Folds blocks in list order (20_memory.md R63). -/
def State.foldBlocks (s : State) (blks : List (List Byte)) : State := blks.foldl State.foldBlock s

/-- The end of FINALIZE: PADBLKS, `FILL <- 0`, `PHASE <- DONE` (42_padding.md R140). -/
def State.finish (s : State) (n : BitVec 2) : State :=
  { s with padblks := n, fill := 0, phase := .done }

/-- The writes of INIT (45_driver.md R222). `BUF` keeps its bytes (R223). -/
def State.start (s : State) (V : Variant) : State :=
  { s with variant := V, H := H0 V, cnt := 0, fill := 0, padblks := 0, errcode := .none, errcmd := 0,
           phase := .absorbing }

/-- Replaces the list of what the host has still to do. -/
def State.withPending (s : State) (p : List HostEvent) : State := { s with pending := p }

end Sys2Proof.Machine
end

