-- ==== Sys2Proof/Machine/Driver.lean ====
section
/-! DEFINITION. The meanings of INIT and READ_DIGEST (45_driver.md). -/
namespace Sys2Proof.Machine

/-- INIT (45_driver.md R222): succeeds in every phase. -/
def execInit (V : Variant) (s : State) : Result := .next ((s.start V).respond true 0)

/-- READ_DIGEST (45_driver.md R226): SEQUENCE, then RANGE (60_exceptions.md R266), then the group. -/
def execReadDigest (K : BitVec 3) (s : State) : Result :=
  if s.phase ≠ .done then
    .next (raiseFault .sequence (Instr.readDigest K).cmd s)
  else if K.toNat ≥ s.variant.DG then
    .next (raiseFault .range (Instr.readDigest K).cmd s)
  else
    .next (s.respond true (digestGroup s.variant s.H K.toNat))

end Sys2Proof.Machine
end

