-- ==== Sys2Proof/Machine/Padding.lean ====
section
/-! DEFINITION. The meaning of FINALIZE (42_padding.md). -/
namespace Sys2Proof.Machine

/-- FINALIZE (42_padding.md R140). Where a precondition of `pad_tail` (R131) does not hold, which 10_state.md
R40 excludes between commands, the model stops (log 8). -/
def execFinalize (s : State) : Result :=
  if s.phase ≠ .absorbing then
    .next (raiseFault .sequence Instr.finalize.cmd s)
  else if padPrecondition s.variant s.fill.toNat s.cnt.toNat then
    .next (((s.foldBlocks s.tail).finish (BitVec.ofNat 2 s.tail.length)).respond true 0)
  else
    .fault .preconditionViolated

end Sys2Proof.Machine
end

