-- ==== Sys2Proof/Machine/Registers.lean ====
section
/-! DEFINITION. The meaning of READ_REG (45_driver.md R230). -/
namespace Sys2Proof.Machine

/-- READ_REG (45_driver.md R230): succeeds in every phase and changes no state of the core. -/
def execReadReg (REG : Reg) (s : State) : Result := .next (s.respond true (regValue s REG))

end Sys2Proof.Machine
end

