-- ==== Sys2Proof/Machine/Segmenter.lean ====
section
/-! DEFINITION. The meaning of ABSORB (41_segmenter.md). -/
namespace Sys2Proof.Machine

/-- ABSORB (41_segmenter.md R101). The checks run in the order of 60_exceptions.md R266, before any write
(R265). Where FILL is not below `B`, which 10_state.md R25 excludes between commands, the model stops
(log 8). -/
def execAbsorb (NM1 : BitVec 3) (din : Din) (s : State) : Result :=
  if s.phase ≠ .absorbing then
    .next (raiseFault .sequence (Instr.absorb NM1 din).cmd s)
  else if s.cnt.toNat + byteCount NM1 > s.variant.MAXB then
    .next (raiseFault .lengthOverflow (Instr.absorb NM1 din).cmd s)
  else if s.fill.toNat < s.variant.B then
    .next ((s.absorbBytes (messageBytes NM1 din)).respond true 0)
  else
    .fault .preconditionViolated

end Sys2Proof.Machine
end

