-- ==== Sys2Proof/Machine/Dispatch.lean ====
section
/-! DEFINITION. One arm for each command. -/
namespace Sys2Proof.Machine

def exec (i : Instr) (s : State) : Host.Outcome State Fault Refusal :=
  match i with
  | .init V => Sys2Proof.Machine.execInit V s
  | .absorb NM1 din => Sys2Proof.Machine.execAbsorb NM1 din s
  | .finalize => Sys2Proof.Machine.execFinalize s
  | .readDigest K => Sys2Proof.Machine.execReadDigest K s
  | .readReg REG => Sys2Proof.Machine.execReadReg REG s

end Sys2Proof.Machine
end

