-- ==== Sys2Proof/Machine/Step.lean ====
section
/-! DEFINITION. One step: the core takes the host's next event and executes it to completion (00_scope.md R15,
20_memory.md R62). -/
namespace Sys2Proof.Machine

/-- One step. With nothing pending the host waits and the core holds all its state (60_exceptions.md R284,
log 5). -/
def step (s : State) : Host.Outcome State Fault Refusal :=
  match s.pending with
  | [] => .next s
  | .reset _ :: rest => resetEvent (s.withPending rest)
  | .command r :: rest =>
    match decode r with
    | some i => exec i (s.withPending rest)
    | none => illegalCommand r.cmd (s.withPending rest)

/-- The state in which the host's next command is the instruction with these bits. The core has no memory to
fetch from: an instruction is what the host sends (10_state.md R27, log 4). -/
def State.withFetchWord (s : State) (nbits w : Nat) : State :=
  s.withPending (.command (requestOfBits nbits w) :: s.pending)

end Sys2Proof.Machine
end

