-- ==== Sys2Proof/WellFormed.lean ====
section
/-! DEFINITION. Well-formedness. A term of `Instr` has field-sized operands, so every one is an instruction
the core decodes (30_encoding.md R76, R78, R79: every field value is legal). What can be ill-formed is a line
of a LISTING, whose operands are plain numbers and byte strings: 30_encoding.md R83 says what an assembler
refuses. -/
namespace Sys2Proof

/-- A line of a listing (30_encoding.md R83), before an assembler has looked at it. -/
inductive Listing where
  | init (V : Variant)
  | absorb (n : Nat) (bytes : List Byte)
  | finalize
  | readDigest (k : Nat)
  | readReg (r : Nat)
  /-- `.word`: a raw command word, used to write illegal encodings. -/
  | word (cmd : Cmd) (din : Din)
  deriving DecidableEq, Repr

/-- What an assembler accepts (30_encoding.md R83, U14): `ABSORB` with `n` in `1..8` and exactly `n` bytes,
`READ_DIGEST` with `k ≤ 7` (whatever the variant), and a register number that has an encoding, `r ≤ 3`
(DEDUCED, log 18). -/
def Listing.wellFormed : Listing → Bool
  | .init _ => true
  | .absorb n bytes => decide (1 ≤ n) && decide (n ≤ 8) && decide (bytes.length = n)
  | .finalize => true
  | .readDigest k => decide (k ≤ 7)
  | .readReg r => decide (r ≤ 3)
  | .word _ _ => true

end Sys2Proof
end

