-- ==== Sys2Proof/Machine/Listing.lean ====
section
/-! DEFINITION. Listings: what an assembler makes of a line (30_encoding.md R83) and what a pseudo-instruction
expands to (30_encoding.md R84). The core never sees a listing; it sees the requests. -/
namespace Sys2Proof

open Sys2Proof.Machine

/-- The request a line encodes to (30_encoding.md R83). -/
def Listing.request : Listing → Request
  | .init .sha256 => ⟨0x01000000, 0⟩
  | .init .sha512 => ⟨0x01010000, 0⟩
  | .absorb n bytes =>
    ⟨0x02000000#32 ||| (BitVec.ofNat 32 (n - 1) <<< 16), BitVec.ofNat 64 (wordBe (bytes ++ zeros (8 - n)))⟩
  | .finalize => ⟨0x03000000, 0⟩
  | .readDigest k => ⟨0x04000000#32 ||| (BitVec.ofNat 32 k <<< 16), 0⟩
  | .readReg r => ⟨0x05000000#32 ||| (BitVec.ofNat 32 r <<< 16), 0⟩
  | .word cmd din => ⟨cmd, din⟩

/-- The message bytes a line carries. -/
def Listing.bytes : Listing → List Byte
  | .absorb _ bytes => bytes
  | .init _ => []
  | .finalize => []
  | .readDigest _ => []
  | .readReg _ => []
  | .word _ _ => []

/-- What an assembler answers for a line: the request, or a refusal (30_encoding.md R83). -/
def assemble (l : Listing) : Option Request :=
  if l.wellFormed then some l.request else none

/-- `ABSORB_BYTES b_0 … b_{m−1}`: groups of 8 bytes, the last one shorter (30_encoding.md R84). -/
def absorbBytesLines (bs : List Byte) : List Listing :=
  (List.range ((bs.length + 7) / 8)).map fun j =>
    .absorb (min 8 (bs.length - 8 * j)) (slice bs (8 * j) 8)

/-- The ASCII bytes of a text (30_encoding.md R84). R84 says nothing of a character outside ASCII: DESIGN CHOICE (log
21), it gives the one byte that is the low 8 bits of its code point. -/
def asciiBytes (text : String) : List Byte := text.toList.map fun c => BitVec.ofNat 8 c.toNat

/-- `DIGEST_ALL` under variant `v` (30_encoding.md R84). -/
def digestAllLines (v : Variant) : List Listing := (List.range v.DG).map Listing.readDigest

/-- The lines a pseudo-instruction stands for, or a line as it is (30_encoding.md R84). -/
inductive SourceLine where
  | plain (l : Listing)
  | absorbBytes (bs : List Byte)
  | absorbStr (text : String)
  | readStatus
  | readLen
  | digestAll
  | hash (v : Variant) (text : String)
  deriving DecidableEq, Repr

/-- The expansion of one line, with the variant of the INIT before it in the listing, if there is one
(30_encoding.md R84). `DIGEST_ALL` with no INIT before it has no `DG` to take, so it has no expansion. -/
def SourceLine.expand (v? : Option Variant) : SourceLine → Option (List Listing)
  | .plain l => some [l]
  | .absorbBytes bs => some (absorbBytesLines bs)
  | .absorbStr text => some (absorbBytesLines (asciiBytes text))
  | .readStatus => some [.readReg 0]
  | .readLen => some [.readReg 1, .readReg 2]
  | .digestAll => v?.map digestAllLines
  | .hash v text =>
    some ([.init v] ++ absorbBytesLines (asciiBytes text) ++ [.finalize] ++ digestAllLines v)

/-- The variant of the last INIT up to and including this line. -/
def SourceLine.variantAfter (v? : Option Variant) : SourceLine → Option Variant
  | .plain (.init v) => some v
  | .hash v _ => some v
  | _ => v?

/-- The expansion of a listing. -/
def expandListing (v? : Option Variant) : List SourceLine → Option (List Listing)
  | [] => some []
  | l :: ls => do
    let here ← l.expand v?
    let rest ← expandListing (l.variantAfter v?) ls
    return here ++ rest

/-- The host's command list for a listing, if an assembler accepts every line of it. -/
def assembleListing (ls : List SourceLine) : Option (List HostEvent) := do
  let lines ← expandListing none ls
  let reqs ← lines.mapM assemble
  return reqs.map HostEvent.command

end Sys2Proof
end

