-- ==== Sys2Proof/Machine/Reference.lean ====
section
/-! DEFINITION. The message-level terms of the spec, which no command computes as such: the blocks of a message,
its padded form, and its digest (41_segmenter.md R105, R106; 42_padding.md R139; 45_driver.md R228). Claims
compare the machine with them. -/
namespace Sys2Proof.Machine

/-- The full blocks of a byte sequence, in order; a shorter rest is left out (41_segmenter.md R106). -/
def blocksOf (v : Variant) (bytes : List Byte) : List (List Byte) :=
  (List.range (bytes.length / v.B)).map fun j => slice bytes (j * v.B) v.B

/-- `fold(compress(v), H, blocks)` (41_segmenter.md R105). -/
def foldCompress (v : Variant) (H : Words v) (blks : List (List Byte)) : Words v :=
  blks.foldl (compress v) H

/-- The number of zero bytes in the padding of a message of `L` bytes: the least `k` with
`(L + 1 + k + LF) mod B = 0` (42_padding.md R139). -/
def zeroCount (v : Variant) (L : Nat) : Nat := (v.B - (L + 1 + v.LF) % v.B) % v.B

/-- The padded message `M ‖ [0x80] ‖ zeros(k) ‖ bytes_be(LF, 8L)` (42_padding.md R139). -/
def paddedMessage (v : Variant) (M : List Byte) : List Byte :=
  M ++ [0x80] ++ zeros (zeroCount v M.length) ++ bytesBe v.LF (8 * M.length)

/-- The final hash state of a message (45_driver.md R228). -/
def hashMessage (v : Variant) (M : List Byte) : Words v :=
  foldCompress v (H0 v) (blocksOf v (paddedMessage v M))

end Sys2Proof.Machine
end

