-- ==== Sys2Proof/Safety.lean ====
section
/-! DEFINITION. What counts as a safe run, and the invariants that claims use (10_state.md R40). -/
namespace Sys2Proof.Machine

/-- The computation open in `s` has absorbed exactly the message `M` (41_segmenter.md R105). -/
structure State.Streaming (s : State) (M : List Byte) : Prop where
  cnt : s.cnt.toNat = M.length
  fill : s.fill.toNat = M.length % s.variant.B
  buf : s.bufPrefix s.fill.toNat = M.drop (M.length - s.fill.toNat)
  H : s.H = foldCompress s.variant (H0 s.variant) (blocksOf s.variant M)

/-- The computation of `s` is complete, and its message was `M` (10_state.md R40, item 4). -/
structure State.Finished (s : State) (M : List Byte) : Prop where
  cnt : s.cnt.toNat = M.length
  H : s.H = hashMessage s.variant M

/-- The invariants of 10_state.md R40, with R29 and R32. Item 3 stands in the form of 41_segmenter.md R105,
which holds in every open computation and says more. -/
structure State.Inv (s : State) : Prop where
  fill_lt : s.fill.toNat < s.variant.B
  cnt_le : s.cnt.toNat ≤ s.variant.MAXB
  streaming : s.phase = .absorbing → ∃ M, s.Streaming M
  finished : s.phase = .done → s.fill = 0 ∧ (s.padblks = 1 ∨ s.padblks = 2) ∧ ∃ M, s.Finished M
  idle : s.phase = .idle → s.errcode = .none ∧ s.errcmd = 0 ∧ s.cnt = 0 ∧ s.fill = 0 ∧ s.padblks = 0
  errcode : s.phase ≠ .error ↔ s.errcode = .none
  padblks : s.padblks ≠ 0 → s.phase = .done ∨ s.phase = .error
  errcmd : s.phase ≠ .error → s.errcmd = 0
  padblks_ne : s.padblks ≠ 3

/-- A run from `s` never stops: whatever the host has put on its list, every number of steps ends in a next
state (70_reset_and_hazards.md R299: no command can hang). -/
def State.RunsOn (s : State) : Prop := ∀ n, ∃ t, Host.Core.run Sys2Proof.core n s = .next t

/-- `t` differs from `s` only where the spec says no command can look: the hash state while no computation is
open or complete, and the bytes of `BUF` that no rule reads (10_state.md R24, R38; U1, U2). -/
def State.SameVisible (s t : State) : Prop :=
  ∃ (H : Words s.variant) (buf : Vector Byte 128),
    t = { s with H := H, buf := buf } ∧
    (s.phase = .absorbing ∨ s.phase = .done → H = s.H) ∧
    (s.phase = .absorbing → ∀ j, (h : j < s.fill.toNat) →
      buf[j]'(Nat.lt_trans h s.fill.isLt) = s.buf[j]'(Nat.lt_trans h s.fill.isLt))

end Sys2Proof.Machine
end

