-- ==== Sys2Proof/Certificates/Slice0/Obligations.lean ====
section
/-! DEFINITION. The statements about the model, one `def Obligations.<Name> : Prop` each. -/

open Sys2Proof Sys2Proof.Machine

/-! ### Decoding, encoding, listings -/

/-- 30_encoding.md R73, R74: decoding an encoded instruction gives it back, and a word that decodes is the
word of the instruction it decodes to, so each word has one meaning. Only ABSORB carries `din`. -/
def Obligations.DecodeEncodeAgree : Prop :=
  (∀ i : Instr, decode (encode i) = some i) ∧
  (∀ (r : Request) (i : Instr), decode r = some i →
    i.cmd = r.cmd ∧ ∀ NM1 din, i = .absorb NM1 din → din = r.din)

/-- A few words written out from 30_encoding.md R74 and R85. -/
def Obligations.WordsOfTheSpecDecode : Prop :=
  decode ⟨0b00000001000000000000000000000000#32, 0⟩ = some (.init .sha256) ∧
  decode ⟨0b00000001000000010000000000000000#32, 0⟩ = some (.init .sha512) ∧
  decode ⟨0b00000010000000100000000000000000#32, 0x6162630000000000⟩ = some (.absorb 2 0x6162630000000000) ∧
  decode ⟨0b00000011000000000000000000000000#32, 0⟩ = some .finalize ∧
  decode ⟨0b00000100000000110000000000000000#32, 0⟩ = some (.readDigest 3) ∧
  decode ⟨0b00000101000000110000000000000000#32, 0⟩ = some (.readReg .errcmd) ∧
  decode ⟨0x01020000#32, 0⟩ = none ∧ decode ⟨0x03000001#32, 0⟩ = none

/-- 30_encoding.md R81: the illegal words are opcode 0x00, opcodes 0x06 to 0xFF, and a defined opcode with a
nonzero reserved bit in ARG or RSV, and no others; each raises `Fault(ILLEGAL_CMD)`, in every phase. -/
def Obligations.IllegalWordsFault : Prop :=
  ∀ (r : Request) (OPC ARG : BitVec 8) (RSV : BitVec 16), r.cmd = OPC ++ ARG ++ RSV →
    (decode r = none ↔
      OPC = 0 ∨ 6 ≤ OPC.toNat ∨ RSV ≠ 0 ∨
      (OPC = 1 ∧ ARG.extractLsb' 1 7 ≠ 0) ∨ (OPC = 2 ∧ ARG.extractLsb' 3 5 ≠ 0) ∨
      (OPC = 3 ∧ ARG ≠ 0) ∨ (OPC = 4 ∧ ARG.extractLsb' 3 5 ≠ 0) ∨
      (OPC = 5 ∧ ARG.extractLsb' 2 6 ≠ 0)) ∧
    (decode r = none → ∀ (s : State) (rest : List HostEvent), s.pending = .command r :: rest →
      step s = .next (raiseFault .illegalCmd r.cmd (s.withPending rest)))

/-- 30_encoding.md R82: `din` of any command other than ABSORB is ignored, and so are the `8 − N` bytes of an
ABSORB's `din` below its message bytes: the outcome of the step is the same, whatever they hold. -/
def Obligations.UnusedDinIgnored : Prop :=
  ∀ (s : State) (cmd : Cmd) (din din' : Din) (rest : List HostEvent),
    (∀ NM1 d, decode ⟨cmd, din⟩ = some (.absorb NM1 d) →
      din >>> (64 - 8 * byteCount NM1) = din' >>> (64 - 8 * byteCount NM1)) →
    step (s.withPending (.command ⟨cmd, din⟩ :: rest)) = step (s.withPending (.command ⟨cmd, din'⟩ :: rest))

/-- 30_encoding.md R83: an assembler refuses an ABSORB with `n` outside `1..8` or with a byte count that differs
from `n`, and a READ_DIGEST with `k > 7` (it accepts `k` from 4 to 7), and the request it makes of a line decodes to
the command of the line, an ABSORB's message bytes being the bytes written. That it refuses a READ_REG with `r > 3`
is the model's inference (log 18), not a sentence of R83. -/
def Obligations.AssembledLinesDecode : Prop :=
  ∀ l : Listing,
    (assemble l = none ↔
      match l with
      | .init _ => False
      | .absorb n bytes => n < 1 ∨ 8 < n ∨ bytes.length ≠ n
      | .finalize => False
      | .readDigest k => 7 < k
      | .readReg r => 3 < r
      | .word _ _ => False) ∧
    ∀ r, assemble l = some r →
      match l with
      | .init v => decode r = some (.init v)
      | .absorb n bytes => ∃ NM1 din, decode r = some (.absorb NM1 din) ∧ byteCount NM1 = n ∧
          messageBytes NM1 din = bytes
      | .finalize => decode r = some .finalize
      | .readDigest k => ∃ K, decode r = some (.readDigest K) ∧ K.toNat = k
      | .readReg n => ∃ REG, decode r = some (.readReg REG) ∧ REG.code.toNat = n
      | .word cmd din => r = ⟨cmd, din⟩

/-- 30_encoding.md R84, `ABSORB_BYTES`: for `j = 0, 8, 16, …` below `m` there is one line, an accepted ABSORB of
`min(8, m − j)` bytes, `b_j` first, and there is no other line; so the bytes of the lines, in order, are the bytes
given, and an empty list expands to nothing. -/
def Obligations.AbsorbBytesExpansion : Prop :=
  ∀ bs : List Byte,
    (∀ k, 8 * k < bs.length →
      ∃ bytes : List Byte,
        (absorbBytesLines bs)[k]? = some (.absorb (min 8 (bs.length - 8 * k)) bytes) ∧
        bytes.length = min 8 (bs.length - 8 * k) ∧
        ∀ i, i < min 8 (bs.length - 8 * k) → bytes[i]? = bs[8 * k + i]?) ∧
    (∀ k, bs.length ≤ 8 * k → (absorbBytesLines bs)[k]? = none) ∧
    (∀ l ∈ absorbBytesLines bs, l.wellFormed = true ∧ ∃ n bytes, l = .absorb n bytes) ∧
    (absorbBytesLines bs).flatMap Listing.bytes = bs ∧
    (bs = [] → absorbBytesLines bs = [])

/-! ### The step -/

/-- 00_scope.md R15: when the host's next command decodes to an instruction, the step is that instruction's
execution in the state without that command on the host's list; it is so for a word placed by `withFetchWord`.
-/
def Obligations.StepRunsDecodedInstruction : Prop :=
  (∀ (s : State) (r : Request) (rest : List HostEvent) (i : Instr),
    s.pending = .command r :: rest → decode r = some i → step s = exec i (s.withPending rest)) ∧
  (∀ (s : State) (nbits w : Nat) (i : Instr),
    decodeTableWord nbits w = some i → step (s.withFetchWord nbits w) = exec i s)

/-- 60_exceptions.md R284: with no command and no reset, the core holds all its state. -/
def Obligations.WaitingHoldsState : Prop :=
  ∀ s : State, s.pending = [] → step s = .next s

/-- 10_state.md R39: the elements whose value after reset the spec gives. -/
def Obligations.ResetValues : Prop :=
  State.reset.phase = .idle ∧ State.reset.variant = .sha256 ∧ State.reset.fill = 0 ∧ State.reset.cnt = 0 ∧
  State.reset.padblks = 0 ∧ State.reset.errcode = .none ∧ State.reset.errcmd = 0

/-- 70_reset_and_hazards.md R290, from any state: the reset event gives those elements their values after
reset, takes nothing else off the host's list, and returns no response. A command in progress leaves no
effect. -/
def Obligations.ResetEventResets : Prop :=
  ∀ (s : State) (inProgress : Option Request) (rest : List HostEvent),
    s.pending = .reset inProgress :: rest →
    ∃ t, step s = .next t ∧ t.phase = .idle ∧ t.variant = .sha256 ∧ t.fill = 0 ∧ t.cnt = 0 ∧ t.padblks = 0 ∧
      t.errcode = .none ∧ t.errcmd = 0 ∧ t.pending = rest ∧ t.responses = s.responses

/-! ### The commands -/

/-- 45_driver.md R222: INIT completes in every state and leaves exactly this state, BUF and the host's side
but for the response as they were. -/
def Obligations.InitStartsComputation : Prop :=
  ∀ (s : State) (V : Variant),
    exec (.init V) s = .next
      { variant := V, H := H0 V, buf := s.buf, fill := 0, cnt := 0, phase := .absorbing, padblks := 0,
        errcode := .none, errcmd := 0, pending := s.pending, responses := s.responses ++ [⟨true, 0⟩] }

/-- 41_segmenter.md R101 to R103: when a computation is open and the count stays within MAXB, ABSORB completes.
CNT grows by N; FILL is the sum modulo B; message byte i is stored at index FILL + i modulo B and every other
byte of BUF is unchanged; H is unchanged when no block is completed, and otherwise is the compression of the
block made of the buffered bytes and the first B − FILL message bytes; nothing else changes. -/
def Obligations.AbsorbAppendsBytes : Prop :=
  ∀ (s : State) (NM1 : BitVec 3) (din : Din),
    s.phase = .absorbing → s.cnt.toNat + byteCount NM1 ≤ s.variant.MAXB → s.fill.toNat < s.variant.B →
    ∃ buf : Vector Byte 128,
      exec (.absorb NM1 din) s = .next
        { s with
          buf := buf
          cnt := s.cnt + BitVec.ofNat 125 (byteCount NM1)
          fill := BitVec.ofNat 7 ((s.fill.toNat + byteCount NM1) % s.variant.B)
          H :=
            if s.fill.toNat + byteCount NM1 < s.variant.B then s.H
            else compress s.variant s.H
              (s.bufPrefix s.fill.toNat ++ (messageBytes NM1 din).take (s.variant.B - s.fill.toNat))
          responses := s.responses ++ [⟨true, 0⟩] } ∧
      (∀ i, i < byteCount NM1 →
        buf[(s.fill.toNat + i) % s.variant.B]? = some (din.extractLsb' (56 - 8 * i) 8)) ∧
      (∀ j, (∀ i, i < byteCount NM1 → j ≠ (s.fill.toNat + i) % s.variant.B) → buf[j]? = s.buf[j]?)

/-- 41_segmenter.md R101, R104: where ABSORB faults. Outside ABSORBING it raises SEQUENCE, and where the count
would exceed MAXB it raises LENGTH_OVERFLOW; no byte is taken. -/
def Obligations.AbsorbFaults : Prop :=
  ∀ (s : State) (NM1 : BitVec 3) (din : Din),
    (s.phase ≠ .absorbing →
      exec (.absorb NM1 din) s = .next (raiseFault .sequence (0x02#8 ++ 0#5 ++ NM1 ++ 0#16) s)) ∧
    (s.phase = .absorbing → s.variant.MAXB < s.cnt.toNat + (NM1.toNat + 1) →
      exec (.absorb NM1 din) s = .next (raiseFault .lengthOverflow (0x02#8 ++ 0#5 ++ NM1 ++ 0#16) s))

/-- 42_padding.md R140 with R131: FINALIZE completes in every open computation that meets the preconditions of
`pad_tail`. In the room case it folds one block and PADBLKS is 1; otherwise it folds two, in order, and PADBLKS
is 2. FILL is 0, PHASE is DONE, and nothing else changes. -/
def Obligations.FinalizeFoldsTail : Prop :=
  ∀ s : State, s.phase = .absorbing → s.fill.toNat < s.variant.B →
    s.fill.toNat = s.cnt.toNat % s.variant.B → s.cnt.toNat ≤ s.variant.MAXB →
    exec .finalize s = .next
      (if s.fill.toNat + 1 + s.variant.LF ≤ s.variant.B then
        { s with
          H := compress s.variant s.H
            (s.bufPrefix s.fill.toNat ++ [0x80] ++ zeros (s.variant.B - s.variant.LF - s.fill.toNat - 1)
              ++ bytesBe s.variant.LF (8 * s.cnt.toNat))
          padblks := 1, fill := 0, phase := .done, responses := s.responses ++ [⟨true, 0⟩] }
      else
        { s with
          H := compress s.variant
            (compress s.variant s.H
              (s.bufPrefix s.fill.toNat ++ [0x80] ++ zeros (s.variant.B - s.fill.toNat - 1)))
            (zeros (s.variant.B - s.variant.LF) ++ bytesBe s.variant.LF (8 * s.cnt.toNat))
          padblks := 2, fill := 0, phase := .done, responses := s.responses ++ [⟨true, 0⟩] })

/-- The model's stop by name (log 8, the model's own; 42_padding.md R131, U10): with a computation open, ABSORB
within the length limit stops where FILL is not below B, and FINALIZE stops where a precondition of `pad_tail`
does not hold. -/
def Obligations.PreconditionStops : Prop :=
  ∀ s : State, s.phase = .absorbing →
    (∀ NM1 din, s.cnt.toNat + byteCount NM1 ≤ s.variant.MAXB → s.variant.B ≤ s.fill.toNat →
      exec (.absorb NM1 din) s = .fault .preconditionViolated) ∧
    (s.variant.B ≤ s.fill.toNat ∨ s.fill.toNat ≠ s.cnt.toNat % s.variant.B ∨ s.variant.MAXB < s.cnt.toNat →
      exec .finalize s = .fault .preconditionViolated)

/-- 45_driver.md R226: in DONE, READ_DIGEST K completes for K below DG. Under SHA-256 group K is
`H[2K] ‖ H[2K+1]`, under SHA-512 it is `H[K]`; no state of the core changes. -/
def Obligations.ReadDigestReturnsGroup : Prop :=
  ∀ (s : State) (K : BitVec 3), s.phase = .done →
    (∀ (H : Words .sha256) (h : K.toNat < 4),
      exec (.readDigest K) { s with variant := .sha256, H := H } = .next
        { s with variant := .sha256, H := H,
                 responses := s.responses ++ [⟨true, H[2 * K.toNat] ++ H[2 * K.toNat + 1]⟩] }) ∧
    (∀ H : Words .sha512,
      exec (.readDigest K) { s with variant := .sha512, H := H } = .next
        { s with variant := .sha512, H := H,
                 responses := s.responses ++ [⟨true, H[K.toNat]'(K.isLt)⟩] })

/-- 45_driver.md R226, 60_exceptions.md R261: where READ_DIGEST faults. Outside DONE it raises SEQUENCE; in
DONE it raises RANGE exactly for K from 4 to 7 under SHA-256. -/
def Obligations.ReadDigestFaults : Prop :=
  ∀ (s : State) (K : BitVec 3),
    (s.phase ≠ .done →
      exec (.readDigest K) s = .next (raiseFault .sequence (0x04#8 ++ 0#5 ++ K ++ 0#16) s)) ∧
    (s.phase = .done → s.variant = .sha256 → 4 ≤ K.toNat →
      exec (.readDigest K) s = .next (raiseFault .range (0x04#8 ++ 0#5 ++ K ++ 0#16) s))

/-- 45_driver.md R230, 10_state.md R35: READ_REG completes in every state and returns STATUS, CNT[63:0],
CNT[124:64] or ERRCMD, zero-extended; no state of the core changes. -/
def Obligations.ReadRegReturnsRegister : Prop :=
  ∀ (s : State) (REG : Reg),
    exec (.readReg REG) s = .next
      { s with
        responses := s.responses ++ [⟨true,
          match REG with
          | .status => status s
          | .lenLo => BitVec.ofNat 64 s.cnt.toNat
          | .lenHi => BitVec.ofNat 64 (s.cnt.toNat / 2 ^ 64)
          | .errcmd => BitVec.ofNat 64 s.errcmd.toNat⟩] }

/-- 42_padding.md R140, 60_exceptions.md R262: FINALIZE outside ABSORBING raises SEQUENCE and folds nothing. -/
def Obligations.FinalizeFaults : Prop :=
  ∀ s : State, s.phase ≠ .absorbing → exec .finalize s = .next (raiseFault .sequence 0x03000000#32 s)

/-- 10_state.md R20, who writes what: BUF only ABSORB; CNT only INIT and ABSORB; FILL only INIT, ABSORB and
FINALIZE; PADBLKS only INIT and FINALIZE; VARIANT only INIT; H only INIT, ABSORB and FINALIZE; the fault record
only INIT and a fault. No command touches the host's list. -/
def Obligations.WritersOfEachElement : Prop :=
  ∀ (i : Instr) (s t : State), exec i s = .next t →
    ((∀ n d, i ≠ .absorb n d) → t.buf = s.buf) ∧
    ((∀ V, i ≠ .init V) → (∀ n d, i ≠ .absorb n d) → t.cnt = s.cnt) ∧
    ((∀ V, i ≠ .init V) → (∀ n d, i ≠ .absorb n d) → i ≠ .finalize →
      t.fill = s.fill ∧ (⟨t.variant, t.H⟩ : (v : Variant) × Words v) = ⟨s.variant, s.H⟩) ∧
    ((∀ V, i ≠ .init V) → i ≠ .finalize → t.padblks = s.padblks) ∧
    ((∀ V, i ≠ .init V) → t.variant = s.variant) ∧
    ((∀ V, i ≠ .init V) → ∀ data, t.responses = s.responses ++ [⟨true, data⟩] →
      t.errcode = s.errcode ∧ t.errcmd = s.errcmd) ∧
    t.pending = s.pending

/-- 45_driver.md R220: a command returns exactly one response. One that completes returns ok = 1 and the read
value, or 0 for INIT, ABSORB and FINALIZE; one that faults returns ok = 0 and data = 0 and leaves ERROR. -/
def Obligations.OneResponsePerCommand : Prop :=
  ∀ (s t : State) (r : Request) (rest : List HostEvent),
    s.pending = .command r :: rest → step s = .next t →
    ∃ ok data, t.responses = s.responses ++ [⟨ok, data⟩] ∧ t.pending = rest ∧
      (ok = false → data = 0 ∧ t.phase = .error) ∧
      (ok = true → ∃ i, decode r = some i ∧
        data = match i with
          | .init _ => 0
          | .absorb _ _ => 0
          | .finalize => 0
          | .readDigest K => digestGroup s.variant s.H K.toNat
          | .readReg REG => regValue s REG)

/-- 20_memory.md R60: a READ_DIGEST or READ_REG that does not fault changes no state of the core, and
repeating it returns the same data. -/
def Obligations.ReadsAreRepeatable : Prop :=
  ∀ (i : Instr) (s t : State) (data : Data), (∃ K, i = .readDigest K) ∨ (∃ REG, i = .readReg REG) →
    exec i s = .next t → t.responses = s.responses ++ [⟨true, data⟩] →
    t = { s with responses := s.responses ++ [⟨true, data⟩] } ∧
    exec i t = .next { s with responses := s.responses ++ [⟨true, data⟩, ⟨true, data⟩] }

/-! ### Faults -/

/-- 60_exceptions.md R262: the phase table. A command the table does not permit raises SEQUENCE; one it permits
does not. -/
def Obligations.PhasePermissions : Prop :=
  ∀ (i : Instr) (s : State),
    (exec i s = .next (raiseFault .sequence i.cmd s) ↔
      match i with
      | .init _ => False
      | .absorb _ _ => s.phase ≠ .absorbing
      | .finalize => s.phase ≠ .absorbing
      | .readDigest _ => s.phase ≠ .done
      | .readReg _ => False)

/-- 60_exceptions.md R263, R264: what a fault is: with no fault standing, PHASE, ERRCODE and ERRCMD are
written and the response is (0, 0); with one standing, only the response is given. -/
def Obligations.FaultEntry : Prop :=
  ∀ (code : ErrCode) (cmd : Cmd) (s : State),
    raiseFault code cmd s =
      { s with
        phase := .error
        errcode := if s.phase = .error then s.errcode else code
        errcmd := if s.phase = .error then s.errcmd else cmd
        responses := s.responses ++ [⟨false, 0⟩] }

/-- 60_exceptions.md R265: every fault is precise. Whichever command answers ok = 0, the whole effect of its
step is fault entry for that command's word, with a cause from 1 to 4. -/
def Obligations.FaultsArePrecise : Prop :=
  ∀ (s t : State) (data : Data), step s = .next t → t.responses = s.responses ++ [⟨false, data⟩] →
    ∃ (r : Request) (rest : List HostEvent) (code : ErrCode), s.pending = .command r :: rest ∧ code ≠ .none ∧
      t = raiseFault code r.cmd (s.withPending rest)

/-- 60_exceptions.md R266: the order of the causes: decode, then phase, then range or length. -/
def Obligations.FaultPriority : Prop :=
  ∀ (s t : State) (r : Request) (rest : List HostEvent),
    s.pending = .command r :: rest → s.phase ≠ .error → step s = .next t →
    t.errcode =
      match decode r with
      | none => .illegalCmd
      | some (.init _) => .none
      | some (.absorb NM1 _) =>
        if s.phase ≠ .absorbing then .sequence
        else if s.variant.MAXB < s.cnt.toNat + byteCount NM1 then .lengthOverflow else s.errcode
      | some .finalize => if s.phase ≠ .absorbing then .sequence else s.errcode
      | some (.readDigest K) =>
        if s.phase ≠ .done then .sequence else if s.variant.DG ≤ K.toNat then .range else s.errcode
      | some (.readReg _) => s.errcode

/-- 60_exceptions.md R264: in ERROR only a well-formed INIT and reset change anything of the core; the record of
the first fault stands, and every command but READ_REG still answers (0, 0). -/
def Obligations.ErrorIsSticky : Prop :=
  ∀ s t : State, s.phase = .error → step s = .next t →
    (∃ c rest, s.pending = .reset c :: rest) ∨
    (∃ r rest V, s.pending = .command r :: rest ∧ decode r = some (.init V)) ∨
    (t = { s with pending := t.pending, responses := t.responses } ∧
      ∀ r rest, s.pending = .command r :: rest → (∀ REG, decode r ≠ some (.readReg REG)) →
        t.responses = s.responses ++ [⟨false, 0⟩])

/-! ### Registers the host reads -/

/-- 10_state.md R33: every field of STATUS, the reserved bits 0, STATUS after reset, and the legal values of PADBLKS
and FILL in the states that meet the invariants. -/
def Obligations.StatusFields : Prop :=
  status State.reset = 0 ∧
  (∀ s : State, s.Inv →
    (status s).extractLsb' 8 2 ≠ 3 ∧ ((status s).extractLsb' 16 7).toNat < s.variant.B) ∧
  ∀ s : State,
    (status s).extractLsb' 0 2 = (match s.phase with | .idle => 0 | .absorbing => 1 | .done => 2 | .error => 3) ∧
    (status s).extractLsb' 2 1 = (match s.variant with | .sha256 => 0 | .sha512 => 1) ∧
    (status s).extractLsb' 3 1 = 0 ∧
    (status s).extractLsb' 4 3 = (match s.errcode with
      | .none => 0 | .illegalCmd => 1 | .sequence => 2 | .lengthOverflow => 3 | .range => 4) ∧
    (status s).extractLsb' 7 1 = 0 ∧
    (status s).extractLsb' 8 2 = s.padblks ∧
    (status s).extractLsb' 10 6 = 0 ∧
    (status s).extractLsb' 16 7 = s.fill ∧
    (status s).extractLsb' 23 41 = 0

/-- 10_state.md R34: LEN_LO and LEN_HI together are CNT, and bits [63:61] of LEN_HI read 0. -/
def Obligations.LengthRegistersHoldCount : Prop :=
  ∀ s : State, (lenHi s).toNat * 2 ^ 64 + (lenLo s).toNat = s.cnt.toNat ∧ (lenHi s).extractLsb' 61 3 = 0

/-! ### Bytes and digest -/

/-- 00_scope.md R14: `word_be` undoes `bytes_be` on numbers that fit, and `bytes_be` undoes `word_be`. -/
def Obligations.BytesAndWordsAgree : Prop :=
  (∀ n x, (bytesBe n x).length = n ∧ (x < 2 ^ (8 * n) → wordBe (bytesBe n x) = x)) ∧
  (∀ s : List Byte, bytesBe s.length (wordBe s) = s)

/-- 45_driver.md R224, R225: the digest is DL bytes, 32 or 64, and byte j is the byte of `H[j div WB]` that
starts at bit `8·(WB − 1 − (j mod WB))`. -/
def Obligations.DigestBytes : Prop :=
  ∀ (v : Variant) (H : Words v),
    (digest v H).length = (match v with | .sha256 => 32 | .sha512 => 64) ∧
    ∀ j, j < v.DL → ∀ h : j / v.WB < 8,
      (digest v H)[j]? = some ((H[j / v.WB]'h).extractLsb' (8 * (v.WB - 1 - j % v.WB)) 8)

/-- 45_driver.md R227: in DONE, READ_DIGEST 0 to DG − 1 each return a value, no other state changing, and the values
in that order, each as 8 big-endian bytes, are the digest. -/
def Obligations.GroupsAreTheDigest : Prop :=
  ∀ s : State, s.phase = .done →
    ∃ groups : List Data, groups.length = s.variant.DG ∧
      (∀ (k : Nat) (data : Data), groups[k]? = some data →
        exec (.readDigest (BitVec.ofNat 3 k)) s = .next { s with responses := s.responses ++ [⟨true, data⟩] }) ∧
      groups.flatMap (fun data => bytesBe 8 data.toNat) = digest s.variant s.H

/-! ### Compression -/

/-- 43_compression.md R164 to R167: the four functions are the rotations and shifts of the tables, for both
variants, with the values at 0 and at all ones. -/
def Obligations.SigmasAreRotations : Prop :=
  (∀ x : BitVec 32,
    bigSigma0 .sha256 x = x.rotateRight 2 ^^^ x.rotateRight 13 ^^^ x.rotateRight 22 ∧
    bigSigma1 .sha256 x = x.rotateRight 6 ^^^ x.rotateRight 11 ^^^ x.rotateRight 25 ∧
    smallSigma0 .sha256 x = x.rotateRight 7 ^^^ x.rotateRight 18 ^^^ x >>> 3 ∧
    smallSigma1 .sha256 x = x.rotateRight 17 ^^^ x.rotateRight 19 ^^^ x >>> 10) ∧
  (∀ x : BitVec 64,
    bigSigma0 .sha512 x = x.rotateRight 28 ^^^ x.rotateRight 34 ^^^ x.rotateRight 39 ∧
    bigSigma1 .sha512 x = x.rotateRight 14 ^^^ x.rotateRight 18 ^^^ x.rotateRight 41 ∧
    smallSigma0 .sha512 x = x.rotateRight 1 ^^^ x.rotateRight 8 ^^^ x >>> 7 ∧
    smallSigma1 .sha512 x = x.rotateRight 19 ^^^ x.rotateRight 61 ^^^ x >>> 6) ∧
  (∀ v : Variant, bigSigma0 v 0 = 0 ∧ bigSigma1 v 0 = 0 ∧ smallSigma0 v 0 = 0 ∧ smallSigma1 v 0 = 0 ∧
    bigSigma0 v (BitVec.allOnes v.W) = BitVec.allOnes v.W ∧ bigSigma1 v (BitVec.allOnes v.W) = BitVec.allOnes v.W) ∧
  smallSigma0 .sha256 0xFFFFFFFF#32 = 0x1FFFFFFF#32 ∧ smallSigma1 .sha256 0xFFFFFFFF#32 = 0x003FFFFF#32 ∧
  smallSigma0 .sha512 0xFFFFFFFFFFFFFFFF#64 = 0x01FFFFFFFFFFFFFF#64 ∧
  smallSigma1 .sha512 0xFFFFFFFFFFFFFFFF#64 = 0x03FFFFFFFFFFFFFF#64

/-- 43_compression.md R162, R163: Ch takes y's bit where x is 1 and z's where x is 0; Maj is the bitwise
majority; Ch's corner cases. -/
def Obligations.ChooseAndMajority : Prop :=
  ∀ (w : Nat) (x y z : BitVec w),
    (∀ i, i < w → (ch x y z).getLsbD i = (if x.getLsbD i then y.getLsbD i else z.getLsbD i)) ∧
    (∀ i, i < w → (maj x y z).getLsbD i =
      decide (2 ≤ (x.getLsbD i).toNat + (y.getLsbD i).toNat + (z.getLsbD i).toNat)) ∧
    ch (BitVec.allOnes w) y z = y ∧ ch 0 y z = z

/-- 43_compression.md R170, R171: the schedule has NR words, 64 or 80; words 0..15 are the big-endian words of
the block, and each later word is σ1(w[t−2]) + w[t−7] + σ0(w[t−15]) + w[t−16]. -/
def Obligations.ScheduleRecurrence : Prop :=
  ∀ (v : Variant) (blk : List Byte),
    (schedule v blk).length = (match v with | .sha256 => 64 | .sha512 => 80) ∧
    (∀ t, t < 16 → (schedule v blk)[t]? = some (BitVec.ofNat v.W (wordBe (slice blk (v.WB * t) v.WB)))) ∧
    (∀ t, 16 ≤ t → t < v.NR → (schedule v blk)[t]? = some
      (smallSigma1 v ((schedule v blk).getD (t - 2) 0) + (schedule v blk).getD (t - 7) 0
        + smallSigma0 v ((schedule v blk).getD (t - 15) 0) + (schedule v blk).getD (t - 16) 0))

/-- 43_compression.md R172 to R177: `compress` is the round loop: the working variables start as H, each round
t = 0 .. NR − 1 moves them as R175 says with T1 and T2 of R173 and R174, and the result adds the last ones
to H word by word. -/
def Obligations.CompressIsRoundLoop : Prop :=
  ∀ (v : Variant) (H : Words v) (blk : List Byte), ∃ x : Nat → Working v.W,
    x 0 = ⟨H[0], H[1], H[2], H[3], H[4], H[5], H[6], H[7]⟩ ∧
    (∀ t, t < v.NR →
      ∀ T1 T2 : BitVec v.W,
        T1 = (x t).h + bigSigma1 v (x t).e + ch (x t).e (x t).f (x t).g + (K v).getD t 0
          + (schedule v blk).getD t 0 →
        T2 = bigSigma0 v (x t).a + maj (x t).a (x t).b (x t).c →
        (x (t + 1)).h = (x t).g ∧ (x (t + 1)).g = (x t).f ∧ (x (t + 1)).f = (x t).e ∧
        (x (t + 1)).e = (x t).d + T1 ∧ (x (t + 1)).d = (x t).c ∧ (x (t + 1)).c = (x t).b ∧
        (x (t + 1)).b = (x t).a ∧ (x (t + 1)).a = T1 + T2) ∧
    compress v H blk =
      #v[H[0] + (x v.NR).a, H[1] + (x v.NR).b, H[2] + (x v.NR).c, H[3] + (x v.NR).d,
        H[4] + (x v.NR).e, H[5] + (x v.NR).f, H[6] + (x v.NR).g, H[7] + (x v.NR).h]

/-- 44_variant_constants.md R203, R204, R205: the check values of the tables and the relation between them. -/
def Obligations.ConstantTables : Prop :=
  (K .sha256).length = 64 ∧ (K .sha512).length = 80 ∧
  (K .sha256).foldl (· + ·) 0 = 0x941D1755#32 ∧ (K .sha256).foldl (· ^^^ ·) 0 = 0x95C49CF5#32 ∧
  (K .sha512).foldl (· + ·) 0 = 0x9BDE35DFFDA2DFFD#64 ∧ (K .sha512).foldl (· ^^^ ·) 0 = 0xD4B82F4E9D920E3B#64 ∧
  ((K .sha512).take 64).map (fun x : BitVec 64 => (x >>> 32).setWidth 32) = K .sha256 ∧
  (H0 .sha512).toList.map (fun x : BitVec 64 => (x >>> 32).setWidth 32) = (H0 .sha256).toList

/-! ### Padding -/

/-- 42_padding.md R132: the room case holds exactly when `r ≤ B − LF − 1`, which is 55 or 111; then there is
one tail block, and otherwise two. -/
def Obligations.RoomCondition : Prop :=
  ∀ (v : Variant) (rem : List Byte) (L : Nat), rem.length < v.B →
    ((padTail v rem L).length = 1 ↔ rem.length ≤ (match v with | .sha256 => 55 | .sha512 => 111)) ∧
    ((padTail v rem L).length = 2 ↔ (match v with | .sha256 => 56 | .sha512 => 112) ≤ rem.length)

/-- 42_padding.md R133: the single tail block of the room case, by byte index. -/
def Obligations.RoomCaseLayout : Prop :=
  ∀ (v : Variant) (rem : List Byte) (L : Nat), rem.length ≤ v.B - v.LF - 1 →
    ∃ blk, padTail v rem L = [blk] ∧ blk.length = v.B ∧
      ∀ j, j < v.B → blk[j]? =
        if j < rem.length then rem[j]?
        else if j = rem.length then some 0x80
        else if j < v.B - v.LF then some 0
        else (bytesBe v.LF (8 * L))[j - (v.B - v.LF)]?

/-- 42_padding.md R134: the two tail blocks of the no-room case, by byte index. -/
def Obligations.NoRoomCaseLayout : Prop :=
  ∀ (v : Variant) (rem : List Byte) (L : Nat), v.B - v.LF ≤ rem.length → rem.length < v.B →
    ∃ blk1 blk2, padTail v rem L = [blk1, blk2] ∧ blk1.length = v.B ∧ blk2.length = v.B ∧
      (∀ j, j < v.B → blk1[j]? =
        if j < rem.length then rem[j]? else if j = rem.length then some 0x80 else some 0) ∧
      (∀ j, j < v.B → blk2[j]? =
        if j < v.B - v.LF then some 0 else (bytesBe v.LF (8 * L))[j - (v.B - v.LF)]?)

/-- 42_padding.md R136: the trailer of the last tail block decodes to 8 times the whole message length, which
at FINALIZE is CNT. -/
def Obligations.TrailerHoldsBitLength : Prop :=
  (∀ (v : Variant) (rem : List Byte) (L : Nat), rem.length < v.B → L ≤ v.MAXB →
    ∃ blk, (padTail v rem L).getLast? = some blk ∧ wordBe (slice blk (v.B - v.LF) v.LF) = 8 * L) ∧
  (∀ s : State, s.fill.toNat < s.variant.B → s.cnt.toNat ≤ s.variant.MAXB →
    ∃ blk, s.tail.getLast? = some blk ∧
      wordBe (slice blk (s.variant.B - s.variant.LF) s.variant.LF) = 8 * s.cnt.toNat)

/-- 42_padding.md R138: block counts. The padded message is a whole number of blocks, `⌊L/B⌋` and 1 or 2
more; the boundary is 55 against 56 and 111 against 112. -/
def Obligations.BlockCounts : Prop :=
  ∀ (v : Variant) (M rem : List Byte), rem.length = M.length % v.B →
    (blocksOf v M).length = M.length / v.B ∧
    (padTail v rem M.length).length = (if M.length % v.B ≤ v.B - v.LF - 1 then 1 else 2) ∧
    (paddedMessage v M).length = (M.length / v.B + (padTail v rem M.length).length) * v.B

/-- 42_padding.md R139: the blocks folded for a message, data blocks then tail blocks, spell
`M ‖ [0x80] ‖ zeros(k) ‖ bytes_be(LF, 8L)` with the least `k` that fills the last block; each is B bytes
(41_segmenter.md R106). -/
def Obligations.PaddingEquivalence : Prop :=
  ∀ (v : Variant) (M : List Byte),
    (∀ blk ∈ blocksOf v M ++ padTail v (M.drop (M.length / v.B * v.B)) M.length, blk.length = v.B) ∧
    ∃ k, (M.length + 1 + k + v.LF) % v.B = 0 ∧ (∀ k', (M.length + 1 + k' + v.LF) % v.B = 0 → k ≤ k') ∧
      (blocksOf v M ++ padTail v (M.drop (M.length / v.B * v.B)) M.length).flatten =
        M ++ [0x80] ++ List.replicate k 0 ++ bytesBe v.LF (8 * M.length)

/-- 41_segmenter.md R104: MAXB is the largest byte count whose bit length fits the length field: 2^61 − 1 and
2^125 − 1. -/
def Obligations.LengthLimit : Prop :=
  Variant.sha256.MAXB = 2 ^ 61 - 1 ∧ Variant.sha512.MAXB = 2 ^ 125 - 1 ∧
  ∀ (v : Variant) (L : Nat), L ≤ v.MAXB ↔ 8 * L ≤ 2 ^ (8 * v.LF) - 1

/-! ### Headlines -/

/-- The state after reset meets the invariants of 10_state.md R40. -/
def Obligations.ResetMeetsInvariants : Prop := State.reset.Inv

/-- 10_state.md R40: from every state that meets the invariants, every step keeps them, whatever the host
does. -/
def Obligations.StepKeepsInvariants : Prop :=
  ∀ s t : State, s.Inv → step s = .next t → t.Inv

/-- 70_reset_and_hazards.md R299, 43_compression.md R181: from every state that meets the invariants, no run
stops, whatever list of commands and resets the host has: no command hangs, and no precondition of the
padding transform is ever violated. -/
def Obligations.RunsNeverStop : Prop :=
  ∀ s : State, s.Inv → s.RunsOn

/-- 41_segmenter.md R105: after INIT v and any ABSORB commands whose bytes concatenate to M, from any state,
the state depends only on v and M, bytes of BUF from FILL on apart: CNT, FILL, the bytes of BUF below FILL, and H
are the length, the rest, the remainder, and the fold of the full blocks. Every command answered (1, 0). -/
def Obligations.GroupingIndependence : Prop :=
  ∀ (s : State) (v : Variant) (cmds : List (BitVec 3 × Din)) (rest : List HostEvent),
    (cmds.flatMap fun c => messageBytes c.1 c.2).length ≤ v.MAXB →
    s.pending = .command (encode (.init v)) ::
      (cmds.map fun c => HostEvent.command (encode (.absorb c.1 c.2))) ++ rest →
    ∃ t : State, Host.Core.run Sys2Proof.core (cmds.length + 1) s = .next t ∧
      t.phase = .absorbing ∧ t.variant = v ∧ t.Streaming (cmds.flatMap fun c => messageBytes c.1 c.2) ∧
      t.padblks = 0 ∧ t.errcode = .none ∧ t.errcmd = 0 ∧
      t.pending = rest ∧ t.responses = s.responses ++ List.replicate (cmds.length + 1) ⟨true, 0⟩

/-- 45_driver.md R228: INIT v, ABSORB commands whose bytes concatenate to M in any grouping, FINALIZE and
DIGEST_ALL, from any state, run without a fault, and the digest groups returned spell the digest of the fold
of the blocks of the padded message. -/
def Obligations.EndToEndDigest : Prop :=
  ∀ (s : State) (v : Variant) (cmds : List (BitVec 3 × Din)),
    (cmds.flatMap fun c => messageBytes c.1 c.2).length ≤ v.MAXB →
    s.pending = .command (encode (.init v)) ::
      (cmds.map fun c => HostEvent.command (encode (.absorb c.1 c.2))) ++
      [.command (encode .finalize)] ++
      ((List.range v.DG).map fun k => HostEvent.command (encode (.readDigest (BitVec.ofNat 3 k)))) →
    ∃ (t : State) (groups : List Data),
      Host.Core.run Sys2Proof.core s.pending.length s = .next t ∧ t.phase = .done ∧ t.pending = [] ∧
      t.responses = s.responses ++ List.replicate (cmds.length + 2) ⟨true, 0⟩ ++
        groups.map (fun data => ⟨true, data⟩) ∧
      groups.flatMap (fun data => bytesBe 8 data.toNat) =
        digest v (hashMessage v (cmds.flatMap fun c => messageBytes c.1 c.2))

/-- 10_state.md R24, R38, U1, U2: what the spec leaves unspecified is not observable. Two states that differ
only in the hash state while no computation is open or complete, and in bytes of BUF that no rule reads, step
alike: both go on with the same responses, and still differ only there. So no response depends on the values
the model names for H and BUF at reset (logs 1 and 2). -/
def Obligations.StaleStateUnobservable : Prop :=
  ∀ s t s' : State, s.SameVisible t → step s = .next s' →
    ∃ t', step t = .next t' ∧ s'.SameVisible t' ∧ t'.responses = s'.responses

/-- 45_driver.md R223: a computation's results do not depend on anything before its INIT: two cores in any
states, given the same commands beginning with INIT v, return the same responses at every later step. -/
def Obligations.ComputationsAreIndependent : Prop :=
  ∀ (s t : State) (v : Variant) (rest : List HostEvent),
    s.pending = .command (encode (.init v)) :: rest → t.pending = s.pending → t.responses = s.responses →
    ∀ (n : Nat) (s' : State), Host.Core.run Sys2Proof.core (n + 1) s = .next s' →
      ∃ t' : State, Host.Core.run Sys2Proof.core (n + 1) t = .next t' ∧ t'.responses = s'.responses
end

