-- ==== Sys2Proof/Laws/Bytes.lean ====
section
/-! SUPPORT. What `bytesBe`, `wordBe`, `zeros` and `slice` do. -/
namespace Sys2Proof.Machine

@[simp] theorem bytesBe_length (n x : Nat) : (bytesBe n x).length = n := by
  induction n with
  | zero => rfl
  | succ n ih => simp [bytesBe, ih]

theorem wordBe_append (s t : List Byte) :
    wordBe (s ++ t) = wordBe s * 256 ^ t.length + wordBe t := by
  unfold wordBe
  rw [List.foldl_append]
  generalize s.foldl (fun acc b => acc * 256 + b.toNat) 0 = a
  induction t using List.reverseRecOn with
  | nil => simp
  | append_singleton t b ih => simp [List.foldl_append, ih, pow_succ]; ring

theorem wordBe_cons (b : Byte) (t : List Byte) :
    wordBe (b :: t) = b.toNat * 256 ^ t.length + wordBe t := by
  have h := wordBe_append [b] t
  simpa [wordBe] using h

theorem wordBe_lt (s : List Byte) : wordBe s < 256 ^ s.length := by
  induction s with
  | nil => simp [wordBe]
  | cons b t ih =>
    have hb := b.isLt
    rw [wordBe_cons, List.length_cons, pow_succ]
    nlinarith [Nat.pos_of_ne_zero (pow_ne_zero t.length (show (256:Nat) ≠ 0 by decide))]

theorem wordBe_bytesBe (n x : Nat) : wordBe (bytesBe n x) = x % 2 ^ (8 * n) := by
  induction n with
  | zero => simp [bytesBe, wordBe, Nat.mod_one]
  | succ n ih =>
    rw [bytesBe, wordBe_cons, bytesBe_length, ih, BitVec.toNat_ofNat, Nat.shiftRight_eq_div_pow,
      show (256 : Nat) = 2 ^ 8 from rfl, ← pow_mul, show 8 * (n + 1) = 8 * n + 8 by ring, pow_add,
      Nat.mod_mul, mul_comm, add_comm]

theorem bytesBe_add (n x y : Nat) : bytesBe n (y * 2 ^ (8 * n) + x) = bytesBe n x := by
  induction n generalizing y with
  | zero => rfl
  | succ n ih =>
    have e : y * 2 ^ (8 * (n + 1)) = (y * 256) * 2 ^ (8 * n) := by
      rw [show 8 * (n + 1) = 8 + 8 * n by ring, pow_add]; ring
    rw [bytesBe, bytesBe, e, ih]
    congr 1
    apply BitVec.eq_of_toNat_eq
    simp only [BitVec.toNat_ofNat, Nat.shiftRight_eq_div_pow]
    rw [add_comm, Nat.add_mul_div_right _ _ (by positivity)]
    omega

theorem bytesBe_wordBe (s : List Byte) : bytesBe s.length (wordBe s) = s := by
  induction s with
  | nil => rfl
  | cons b t ih =>
    have e : (256 : Nat) ^ t.length = 2 ^ (8 * t.length) := by
      rw [show (256 : Nat) = 2 ^ 8 from rfl, ← pow_mul]
    rw [List.length_cons, bytesBe, wordBe_cons, e, bytesBe_add, ih]
    congr 1
    apply BitVec.eq_of_toNat_eq
    have h := wordBe_lt t
    rw [e] at h
    rw [BitVec.toNat_ofNat, Nat.shiftRight_eq_div_pow, mul_comm, Nat.mul_add_div (by positivity),
      Nat.div_eq_of_lt h, Nat.add_zero, Nat.mod_eq_of_lt b.isLt]

@[simp] theorem zeros_length (n : Nat) : (zeros n).length = n := by simp [zeros]

theorem slice_length (s : List Byte) (lo n : Nat) (h : lo + n ≤ s.length) : (slice s lo n).length = n := by
  simp [slice]; omega

theorem slice_append_right (s t : List Byte) (lo n : Nat) (hs : s.length = lo) (ht : t.length = n) :
    slice (s ++ t) lo n = t := by
  subst hs ht; simp [slice]

theorem slice_getElem? (s : List Byte) (lo n j : Nat) (h : j < n) : (slice s lo n)[j]? = s[lo + j]? := by
  simp [slice, h]

theorem bytesBe_getElem? (n x j : Nat) (h : j < n) :
    (bytesBe n x)[j]? = some (BitVec.ofNat 8 (x >>> (8 * (n - 1 - j)))) := by
  induction n generalizing j with
  | zero => omega
  | succ n ih =>
    cases j with
    | zero => simp [bytesBe]
    | succ j => rw [bytesBe, List.getElem?_cons_succ, ih j (by omega)]; congr 4; omega
end Sys2Proof.Machine
end

