-- ==== Sys2Proof/Laws/Compression.lean ====
section
/-! SUPPORT. What the parts of the compression core do (43_compression.md). -/
namespace Sys2Proof.Machine

theorem rotr_eq_rotateRight {w : Nat} (n : Nat) (x : BitVec w) (h : n < w) : rotr n x = x.rotateRight n := by
  simp [rotr, BitVec.rotateRight, BitVec.rotateRightAux, Nat.mod_eq_of_lt h]

theorem K_length (v : Variant) : (K v).length = v.NR := by cases v <;> rfl

theorem blockWords_length (v : Variant) (blk : List Byte) : (blockWords v blk).length = 16 := by
  simp [blockWords]

/-- What extending a schedule of 16 or more words gives: `n` more words, the old ones unchanged, each new one by
the recurrence (43_compression.md R171). -/
theorem extendSchedule_spec (v : Variant) (n : Nat) (w : List (BitVec v.W)) (hw : 16 ≤ w.length) :
    (extendSchedule v n w).length = w.length + n ∧
    (∀ t, t < w.length → (extendSchedule v n w)[t]? = w[t]?) ∧
    (∀ t, w.length ≤ t → t < w.length + n → (extendSchedule v n w)[t]? = some
      (smallSigma1 v ((extendSchedule v n w).getD (t - 2) 0) + (extendSchedule v n w).getD (t - 7) 0
        + smallSigma0 v ((extendSchedule v n w).getD (t - 15) 0) + (extendSchedule v n w).getD (t - 16) 0)) := by
  induction n generalizing w with
  | zero => exact ⟨rfl, fun t h => rfl, fun t h1 h2 => by omega⟩
  | succ n ih =>
    obtain ⟨a, b, c⟩ := ih (w ++ [scheduleWord v w]) (by simp; omega)
    simp only [List.length_append, List.length_singleton] at a b c
    refine ⟨by rw [extendSchedule, a]; omega, fun t ht => ?_, fun t h1 h2 => ?_⟩
    · rw [extendSchedule, b t (by omega), List.getElem?_append_left ht]
    · rw [extendSchedule]
      by_cases h : t = w.length
      · subst h
        have g : ∀ k, 0 < k → k ≤ 16 → (extendSchedule v n (w ++ [scheduleWord v w])).getD (w.length - k) 0 = w.getD (w.length - k) 0 := by
          intro k h0 hk
          simp only [List.getD_eq_getElem?_getD]
          rw [b _ (by omega), List.getElem?_append_left (by omega)]
        rw [b _ (by omega), g 2 (by omega) (by omega), g 7 (by omega) (by omega), g 15 (by omega) (by omega), g 16 (by omega) (by omega)]
        simp [scheduleWord]
      · exact c t (by omega) (by omega)

end Sys2Proof.Machine
end

