-- ==== Sys2Proof/Laws/Decode.lean ====
section
/-! SUPPORT. The decoder and the encoder by the fields of a command word. -/
namespace Sys2Proof

@[simp] theorem Variant.ofCode_code (v : Variant) : Variant.ofCode v.code = v := by cases v <;> rfl

@[simp] theorem Reg.ofCode_code (r : Reg) : Reg.ofCode r.code = r := by cases r <;> rfl

theorem Variant.code_ofCode : ∀ b : BitVec 1, (Variant.ofCode b).code = b := by decide

theorem Reg.code_ofCode : ∀ b : BitVec 2, (Reg.ofCode b).code = b := by decide

theorem cmd_split (c : Cmd) : c = c.extractLsb' 24 8 ++ c.extractLsb' 16 8 ++ c.extractLsb' 0 16 := by
  apply BitVec.eq_of_getLsbD_eq
  intro i hi
  simp only [BitVec.getLsbD_append, BitVec.getLsbD_extractLsb']
  by_cases h : i < 16
  · simp [h]
  · by_cases h' : i - 16 < 8
    · simp [h, h']; congr 1; omega
    · have : i - 16 - 8 < 8 := by omega
      simp [h, h', this]; congr 1; omega

theorem fields_inj {a a' b b' : BitVec 8} {c c' : BitVec 16} :
    a ++ b ++ c = a' ++ b' ++ c' ↔ a = a' ∧ b = b' ∧ c = c' := by
  constructor
  · intro h
    have e (i : Nat) : (a ++ b ++ c).getLsbD i = (a' ++ b' ++ c').getLsbD i := by rw [h]
    simp only [BitVec.getLsbD_append] at e
    refine ⟨BitVec.eq_of_getLsbD_eq fun i hi => ?_, BitVec.eq_of_getLsbD_eq fun i hi => ?_,
      BitVec.eq_of_getLsbD_eq fun i hi => ?_⟩
    · have := e (i + 24)
      simpa [show ¬ i + 24 < 16 by omega, show ¬ i + 24 - 16 < 8 by omega, show i + 24 - 16 - 8 = i by omega] using this
    · have := e (i + 16)
      simpa [hi] using this
    · have := e i
      simpa [hi] using this
  · rintro ⟨rfl, rfl, rfl⟩; rfl

theorem fields_and (a a' b b' : BitVec 8) (c c' : BitVec 16) :
    (a ++ b ++ c) &&& (a' ++ b' ++ c') = (a &&& a') ++ (b &&& b') ++ (c &&& c') := by
  simp only [BitVec.and_append]

theorem fields_extract (a b : BitVec 8) (c : BitVec 16) (n : Nat) (hn : n ≤ 8) :
    (a ++ b ++ c : BitVec 32).extractLsb' 16 n = b.extractLsb' 0 n := by
  apply BitVec.eq_of_getLsbD_eq
  intro i hi
  simp only [BitVec.getLsbD_extractLsb', hi, BitVec.getLsbD_append, show ¬ 16 + i < 16 by omega, show 16 + i - 16 = i by omega, show i < 8 by omega]
  simp

/-- The decoder in terms of the fields OPC, ARG and RSV (30_encoding.md R71, R73). -/
theorem decode_fields (OPC ARG : BitVec 8) (RSV : BitVec 16) (din : Din) :
    decode ⟨OPC ++ ARG ++ RSV, din⟩ =
      if RSV = 0 then
        if OPC = 1 ∧ ARG &&& 0xFE = 0 then some (.init (Variant.ofCode (ARG.extractLsb' 0 1)))
        else if OPC = 2 ∧ ARG &&& 0xF8 = 0 then some (.absorb (ARG.extractLsb' 0 3) din)
        else if OPC = 3 ∧ ARG = 0 then some .finalize
        else if OPC = 4 ∧ ARG &&& 0xF8 = 0 then some (.readDigest (ARG.extractLsb' 0 3))
        else if OPC = 5 ∧ ARG &&& 0xFC = 0 then some (.readReg (Reg.ofCode (ARG.extractLsb' 0 2)))
        else none
      else none := by
  have key (m a b : BitVec 8) :
      (OPC ++ ARG ++ RSV) &&& (0xFF#8 ++ m ++ 0xFFFF#16) = a ++ b ++ 0#16 ↔ OPC = a ∧ ARG &&& m = b ∧ RSV = 0 := by
    rw [fields_and, fields_inj]
    simp only [show (0xFF#8) = BitVec.allOnes 8 from rfl, show (0xFFFF#16) = BitVec.allOnes 16 from rfl, BitVec.and_allOnes]
    rfl
  unfold decode
  simp only [show 0xFFFEFFFF#32 = 0xFF#8 ++ 0xFE#8 ++ 0xFFFF#16 from rfl,
    show 0xFFF8FFFF#32 = 0xFF#8 ++ 0xF8#8 ++ 0xFFFF#16 from rfl,
    show 0xFFFCFFFF#32 = 0xFF#8 ++ 0xFC#8 ++ 0xFFFF#16 from rfl,
    show 0x01000000#32 = 0x01#8 ++ 0#8 ++ 0#16 from rfl,
    show 0x02000000#32 = 0x02#8 ++ 0#8 ++ 0#16 from rfl,
    show 0x03000000#32 = 0x03#8 ++ 0#8 ++ 0#16 from rfl,
    show 0x04000000#32 = 0x04#8 ++ 0#8 ++ 0#16 from rfl,
    show 0x05000000#32 = 0x05#8 ++ 0#8 ++ 0#16 from rfl, key, fields_inj,
    fields_extract _ _ _ 1 (by decide), fields_extract _ _ _ 2 (by decide), fields_extract _ _ _ 3 (by decide)]
  by_cases h : RSV = 0
  · subst h; simp
  · have : ¬ RSV = 0#16 := h
    simp [this]

/-- The command word of an ABSORB, field by field. -/
theorem cmd_absorb (n : BitVec 3) (din : Din) : (Instr.absorb n din).cmd = 0x02#8 ++ 0#5 ++ n ++ 0#16 := by
  have h : ∀ n : BitVec 3,
      (0x02#8 ++ (0#5 ++ n : BitVec 8) ++ 0#16 : BitVec 32) = 0x02#8 ++ 0#5 ++ n ++ 0#16 := by decide
  exact h n

/-- The command word of a READ_DIGEST, field by field. -/
theorem cmd_readDigest : ∀ k : BitVec 3, (Instr.readDigest k).cmd = 0x04#8 ++ 0#5 ++ k ++ 0#16 := by decide

end Sys2Proof
end

