-- ==== Sys2Proof/Laws/Digest.lean ====
section
/-! SUPPORT. What the digest bytes are (45_driver.md R224). -/
namespace Sys2Proof.Machine

theorem Words.toList_eq {v : Variant} (H : Words v) : H.toList = [H[0], H[1], H[2], H[3], H[4], H[5], H[6], H[7]] := by
  apply List.ext_getElem
  · simp
  · intro i h1 h2
    have : i < 8 := by simpa using h1
    interval_cases i <;> simp

theorem flatMap_getElem? {α β} (f : α → List β) (n : Nat) (hf : ∀ x, (f x).length = n) (l : List α) (j : Nat) (hn : 0 < n) :
    (l.flatMap f)[j]? = (l[j / n]?).bind (fun x => (f x)[j % n]?) := by
  induction l generalizing j with
  | nil => simp
  | cons a l ih =>
    rw [List.flatMap_cons, List.getElem?_append, hf]
    split_ifs with h
    · simp [Nat.div_eq_of_lt h, Nat.mod_eq_of_lt h]
    · rw [ih, Nat.mod_eq_sub_mod (by omega : n ≤ j)]
      rw [show j / n = (j - n) / n + 1 by rw [← Nat.sub_add_cancel (by omega : n ≤ j), Nat.add_div_right _ hn]; simp]
      simp

theorem W_eq (v : Variant) : v.W = 8 * v.WB := by cases v <;> rfl

theorem digest_length (v : Variant) (H : Words v) : (digest v H).length = 8 * v.WB := by
  simp [digest, Words.toList_eq]; ring

end Sys2Proof.Machine
end

