-- ==== Sys2Proof/Laws/State.lean ====
section
/-! SUPPORT. One lemma for each field and each named update of the state, true by unfolding the update. -/
namespace Sys2Proof.Machine

variable (s : State)

@[simp] theorem State.respond_variant (ok : Bool) (data : Data) : (s.respond ok data).variant = s.variant := rfl
@[simp] theorem State.respond_H (ok : Bool) (data : Data) : (s.respond ok data).H = s.H := rfl
@[simp] theorem State.respond_buf (ok : Bool) (data : Data) : (s.respond ok data).buf = s.buf := rfl
@[simp] theorem State.respond_fill (ok : Bool) (data : Data) : (s.respond ok data).fill = s.fill := rfl
@[simp] theorem State.respond_cnt (ok : Bool) (data : Data) : (s.respond ok data).cnt = s.cnt := rfl
@[simp] theorem State.respond_phase (ok : Bool) (data : Data) : (s.respond ok data).phase = s.phase := rfl
@[simp] theorem State.respond_padblks (ok : Bool) (data : Data) : (s.respond ok data).padblks = s.padblks := rfl
@[simp] theorem State.respond_errcode (ok : Bool) (data : Data) : (s.respond ok data).errcode = s.errcode := rfl
@[simp] theorem State.respond_errcmd (ok : Bool) (data : Data) : (s.respond ok data).errcmd = s.errcmd := rfl
@[simp] theorem State.respond_pending (ok : Bool) (data : Data) : (s.respond ok data).pending = s.pending := rfl
@[simp] theorem State.respond_responses (ok : Bool) (data : Data) : (s.respond ok data).responses = s.responses ++ [⟨ok, data⟩] := rfl

@[simp] theorem State.recordFault_variant (code : ErrCode) (cmd : Cmd) : (s.recordFault code cmd).variant = s.variant := rfl
@[simp] theorem State.recordFault_H (code : ErrCode) (cmd : Cmd) : (s.recordFault code cmd).H = s.H := rfl
@[simp] theorem State.recordFault_buf (code : ErrCode) (cmd : Cmd) : (s.recordFault code cmd).buf = s.buf := rfl
@[simp] theorem State.recordFault_fill (code : ErrCode) (cmd : Cmd) : (s.recordFault code cmd).fill = s.fill := rfl
@[simp] theorem State.recordFault_cnt (code : ErrCode) (cmd : Cmd) : (s.recordFault code cmd).cnt = s.cnt := rfl
@[simp] theorem State.recordFault_phase (code : ErrCode) (cmd : Cmd) : (s.recordFault code cmd).phase = .error := rfl
@[simp] theorem State.recordFault_padblks (code : ErrCode) (cmd : Cmd) : (s.recordFault code cmd).padblks = s.padblks := rfl
@[simp] theorem State.recordFault_errcode (code : ErrCode) (cmd : Cmd) : (s.recordFault code cmd).errcode = code := rfl
@[simp] theorem State.recordFault_errcmd (code : ErrCode) (cmd : Cmd) : (s.recordFault code cmd).errcmd = cmd := rfl
@[simp] theorem State.recordFault_pending (code : ErrCode) (cmd : Cmd) : (s.recordFault code cmd).pending = s.pending := rfl
@[simp] theorem State.recordFault_responses (code : ErrCode) (cmd : Cmd) : (s.recordFault code cmd).responses = s.responses := rfl

@[simp] theorem State.storeByte_variant (b : Byte) : (s.storeByte b).variant = s.variant := rfl
@[simp] theorem State.storeByte_H (b : Byte) : (s.storeByte b).H = s.H := rfl
@[simp] theorem State.storeByte_buf (b : Byte) : (s.storeByte b).buf = s.buf.set s.fill.toNat b s.fill.isLt := rfl
@[simp] theorem State.storeByte_fill (b : Byte) : (s.storeByte b).fill = s.fill := rfl
@[simp] theorem State.storeByte_cnt (b : Byte) : (s.storeByte b).cnt = s.cnt + 1 := rfl
@[simp] theorem State.storeByte_phase (b : Byte) : (s.storeByte b).phase = s.phase := rfl
@[simp] theorem State.storeByte_padblks (b : Byte) : (s.storeByte b).padblks = s.padblks := rfl
@[simp] theorem State.storeByte_errcode (b : Byte) : (s.storeByte b).errcode = s.errcode := rfl
@[simp] theorem State.storeByte_errcmd (b : Byte) : (s.storeByte b).errcmd = s.errcmd := rfl
@[simp] theorem State.storeByte_pending (b : Byte) : (s.storeByte b).pending = s.pending := rfl
@[simp] theorem State.storeByte_responses (b : Byte) : (s.storeByte b).responses = s.responses := rfl

@[simp] theorem State.withFill_variant (f : BitVec 7) : (s.withFill f).variant = s.variant := rfl
@[simp] theorem State.withFill_H (f : BitVec 7) : (s.withFill f).H = s.H := rfl
@[simp] theorem State.withFill_buf (f : BitVec 7) : (s.withFill f).buf = s.buf := rfl
@[simp] theorem State.withFill_fill (f : BitVec 7) : (s.withFill f).fill = f := rfl
@[simp] theorem State.withFill_cnt (f : BitVec 7) : (s.withFill f).cnt = s.cnt := rfl
@[simp] theorem State.withFill_phase (f : BitVec 7) : (s.withFill f).phase = s.phase := rfl
@[simp] theorem State.withFill_padblks (f : BitVec 7) : (s.withFill f).padblks = s.padblks := rfl
@[simp] theorem State.withFill_errcode (f : BitVec 7) : (s.withFill f).errcode = s.errcode := rfl
@[simp] theorem State.withFill_errcmd (f : BitVec 7) : (s.withFill f).errcmd = s.errcmd := rfl
@[simp] theorem State.withFill_pending (f : BitVec 7) : (s.withFill f).pending = s.pending := rfl
@[simp] theorem State.withFill_responses (f : BitVec 7) : (s.withFill f).responses = s.responses := rfl

@[simp] theorem State.foldBlock_variant (blk : List Byte) : (s.foldBlock blk).variant = s.variant := rfl
@[simp] theorem State.foldBlock_H (blk : List Byte) : (s.foldBlock blk).H = compress s.variant s.H blk := rfl
@[simp] theorem State.foldBlock_buf (blk : List Byte) : (s.foldBlock blk).buf = s.buf := rfl
@[simp] theorem State.foldBlock_fill (blk : List Byte) : (s.foldBlock blk).fill = s.fill := rfl
@[simp] theorem State.foldBlock_cnt (blk : List Byte) : (s.foldBlock blk).cnt = s.cnt := rfl
@[simp] theorem State.foldBlock_phase (blk : List Byte) : (s.foldBlock blk).phase = s.phase := rfl
@[simp] theorem State.foldBlock_padblks (blk : List Byte) : (s.foldBlock blk).padblks = s.padblks := rfl
@[simp] theorem State.foldBlock_errcode (blk : List Byte) : (s.foldBlock blk).errcode = s.errcode := rfl
@[simp] theorem State.foldBlock_errcmd (blk : List Byte) : (s.foldBlock blk).errcmd = s.errcmd := rfl
@[simp] theorem State.foldBlock_pending (blk : List Byte) : (s.foldBlock blk).pending = s.pending := rfl
@[simp] theorem State.foldBlock_responses (blk : List Byte) : (s.foldBlock blk).responses = s.responses := rfl

@[simp] theorem State.foldFullBlock_variant : (s.foldFullBlock).variant = s.variant := rfl
@[simp] theorem State.foldFullBlock_H : (s.foldFullBlock).H = compress s.variant s.H (s.bufPrefix s.variant.B) := rfl
@[simp] theorem State.foldFullBlock_buf : (s.foldFullBlock).buf = s.buf := rfl
@[simp] theorem State.foldFullBlock_fill : (s.foldFullBlock).fill = 0 := rfl
@[simp] theorem State.foldFullBlock_cnt : (s.foldFullBlock).cnt = s.cnt := rfl
@[simp] theorem State.foldFullBlock_phase : (s.foldFullBlock).phase = s.phase := rfl
@[simp] theorem State.foldFullBlock_padblks : (s.foldFullBlock).padblks = s.padblks := rfl
@[simp] theorem State.foldFullBlock_errcode : (s.foldFullBlock).errcode = s.errcode := rfl
@[simp] theorem State.foldFullBlock_errcmd : (s.foldFullBlock).errcmd = s.errcmd := rfl
@[simp] theorem State.foldFullBlock_pending : (s.foldFullBlock).pending = s.pending := rfl
@[simp] theorem State.foldFullBlock_responses : (s.foldFullBlock).responses = s.responses := rfl

@[simp] theorem State.finish_variant (n : BitVec 2) : (s.finish n).variant = s.variant := rfl
@[simp] theorem State.finish_H (n : BitVec 2) : (s.finish n).H = s.H := rfl
@[simp] theorem State.finish_buf (n : BitVec 2) : (s.finish n).buf = s.buf := rfl
@[simp] theorem State.finish_fill (n : BitVec 2) : (s.finish n).fill = 0 := rfl
@[simp] theorem State.finish_cnt (n : BitVec 2) : (s.finish n).cnt = s.cnt := rfl
@[simp] theorem State.finish_phase (n : BitVec 2) : (s.finish n).phase = .done := rfl
@[simp] theorem State.finish_padblks (n : BitVec 2) : (s.finish n).padblks = n := rfl
@[simp] theorem State.finish_errcode (n : BitVec 2) : (s.finish n).errcode = s.errcode := rfl
@[simp] theorem State.finish_errcmd (n : BitVec 2) : (s.finish n).errcmd = s.errcmd := rfl
@[simp] theorem State.finish_pending (n : BitVec 2) : (s.finish n).pending = s.pending := rfl
@[simp] theorem State.finish_responses (n : BitVec 2) : (s.finish n).responses = s.responses := rfl

@[simp] theorem State.start_variant (V : Variant) : (s.start V).variant = V := rfl
@[simp] theorem State.start_H (V : Variant) : (s.start V).H = H0 V := rfl
@[simp] theorem State.start_buf (V : Variant) : (s.start V).buf = s.buf := rfl
@[simp] theorem State.start_fill (V : Variant) : (s.start V).fill = 0 := rfl
@[simp] theorem State.start_cnt (V : Variant) : (s.start V).cnt = 0 := rfl
@[simp] theorem State.start_phase (V : Variant) : (s.start V).phase = .absorbing := rfl
@[simp] theorem State.start_padblks (V : Variant) : (s.start V).padblks = 0 := rfl
@[simp] theorem State.start_errcode (V : Variant) : (s.start V).errcode = .none := rfl
@[simp] theorem State.start_errcmd (V : Variant) : (s.start V).errcmd = 0 := rfl
@[simp] theorem State.start_pending (V : Variant) : (s.start V).pending = s.pending := rfl
@[simp] theorem State.start_responses (V : Variant) : (s.start V).responses = s.responses := rfl

@[simp] theorem State.withPending_variant (p : List HostEvent) : (s.withPending p).variant = s.variant := rfl
@[simp] theorem State.withPending_H (p : List HostEvent) : (s.withPending p).H = s.H := rfl
@[simp] theorem State.withPending_buf (p : List HostEvent) : (s.withPending p).buf = s.buf := rfl
@[simp] theorem State.withPending_fill (p : List HostEvent) : (s.withPending p).fill = s.fill := rfl
@[simp] theorem State.withPending_cnt (p : List HostEvent) : (s.withPending p).cnt = s.cnt := rfl
@[simp] theorem State.withPending_phase (p : List HostEvent) : (s.withPending p).phase = s.phase := rfl
@[simp] theorem State.withPending_padblks (p : List HostEvent) : (s.withPending p).padblks = s.padblks := rfl
@[simp] theorem State.withPending_errcode (p : List HostEvent) : (s.withPending p).errcode = s.errcode := rfl
@[simp] theorem State.withPending_errcmd (p : List HostEvent) : (s.withPending p).errcmd = s.errcmd := rfl
@[simp] theorem State.withPending_pending (p : List HostEvent) : (s.withPending p).pending = p := rfl
@[simp] theorem State.withPending_responses (p : List HostEvent) : (s.withPending p).responses = s.responses := rfl

end Sys2Proof.Machine
end

