-- ==== Sys2Proof/Laws/Ops.lean ====
section
/-! SUPPORT. What the shared operations do: taking a fault, absorbing bytes, folding blocks. -/
namespace Sys2Proof.Machine

section raiseFault

variable (code : ErrCode) (cmd : Cmd) (s : State)

@[simp] theorem raiseFault_variant : (raiseFault code cmd s).variant = s.variant := by
  unfold raiseFault; split_ifs <;> rfl

@[simp] theorem raiseFault_buf : (raiseFault code cmd s).buf = s.buf := by
  unfold raiseFault; split_ifs <;> rfl

@[simp] theorem raiseFault_fill : (raiseFault code cmd s).fill = s.fill := by
  unfold raiseFault; split_ifs <;> rfl

@[simp] theorem raiseFault_cnt : (raiseFault code cmd s).cnt = s.cnt := by
  unfold raiseFault; split_ifs <;> rfl

@[simp] theorem raiseFault_phase : (raiseFault code cmd s).phase = .error := by
  unfold raiseFault; split_ifs with h
  · exact h
  · rfl

@[simp] theorem raiseFault_padblks : (raiseFault code cmd s).padblks = s.padblks := by
  unfold raiseFault; split_ifs <;> rfl

theorem raiseFault_errcode :
    (raiseFault code cmd s).errcode = if s.phase = .error then s.errcode else code := by
  unfold raiseFault; split_ifs <;> rfl

theorem raiseFault_errcmd :
    (raiseFault code cmd s).errcmd = if s.phase = .error then s.errcmd else cmd := by
  unfold raiseFault; split_ifs <;> rfl

@[simp] theorem raiseFault_pending : (raiseFault code cmd s).pending = s.pending := by
  unfold raiseFault; split_ifs <;> rfl

@[simp] theorem raiseFault_responses :
    (raiseFault code cmd s).responses = s.responses ++ [⟨false, 0⟩] := by
  unfold raiseFault; split_ifs <;> rfl

end raiseFault

/-- What one message byte leaves alone (41_segmenter.md R102). -/
theorem absorbByte_frame (s : State) (b : Byte) :
    (s.absorbByte b).variant = s.variant ∧ (s.absorbByte b).phase = s.phase ∧
    (s.absorbByte b).padblks = s.padblks ∧ (s.absorbByte b).errcode = s.errcode ∧
    (s.absorbByte b).errcmd = s.errcmd ∧ (s.absorbByte b).pending = s.pending ∧
    (s.absorbByte b).responses = s.responses ∧ (s.absorbByte b).cnt = s.cnt + 1 := by
  unfold State.absorbByte; split_ifs <;> simp

theorem absorbBytes_cons (s : State) (b : Byte) (bs : List Byte) :
    s.absorbBytes (b :: bs) = (s.absorbByte b).absorbBytes bs := rfl

/-- What the bytes of an ABSORB leave alone. -/
theorem absorbBytes_frame (s : State) (bs : List Byte) :
    (s.absorbBytes bs).variant = s.variant ∧ (s.absorbBytes bs).phase = s.phase ∧
    (s.absorbBytes bs).padblks = s.padblks ∧ (s.absorbBytes bs).errcode = s.errcode ∧
    (s.absorbBytes bs).errcmd = s.errcmd ∧ (s.absorbBytes bs).pending = s.pending ∧
    (s.absorbBytes bs).responses = s.responses := by
  induction bs generalizing s with
  | nil => simp [State.absorbBytes]
  | cons b bs ih =>
    obtain ⟨a1, a2, a3, a4, a5, a6, a7, -⟩ := absorbByte_frame s b
    simpa only [absorbBytes_cons, a1, a2, a3, a4, a5, a6, a7] using ih (s.absorbByte b)

/-- Folding blocks changes H only (20_memory.md R63). -/
theorem foldBlocks_eq (s : State) (blks : List (List Byte)) :
    s.foldBlocks blks = { s with H := foldCompress s.variant s.H blks } := by
  induction blks generalizing s with
  | nil => rfl
  | cons b bs ih =>
    show (s.foldBlock b).foldBlocks bs = _
    rw [ih]; rfl

end Sys2Proof.Machine
end

