-- ==== Sys2Proof/Laws/Exec.lean ====
section
/-! SUPPORT. What a command and a step can do when they answer a next state. -/
namespace Sys2Proof.Machine

/-- Everything a command can do when it answers a next state. -/
def Completed (i : Instr) (s t : State) : Prop :=
  match i with
  | .init V => t = (s.start V).respond true 0
  | .absorb NM1 din => s.phase = .absorbing ∧ s.cnt.toNat + byteCount NM1 ≤ s.variant.MAXB ∧
      s.fill.toNat < s.variant.B ∧ t = (s.absorbBytes (messageBytes NM1 din)).respond true 0
  | .finalize => s.phase = .absorbing ∧ padPrecondition s.variant s.fill.toNat s.cnt.toNat = true ∧
      t = ((s.foldBlocks s.tail).finish (BitVec.ofNat 2 s.tail.length)).respond true 0
  | .readDigest K => s.phase = .done ∧ K.toNat < s.variant.DG ∧
      t = s.respond true (digestGroup s.variant s.H K.toNat)
  | .readReg REG => t = s.respond true (regValue s REG)

/-- A command that answers a next state took a fault or completed. -/
theorem exec_cases {i : Instr} {s t : State} (h : exec i s = .next t) :
    (∃ code, code ≠ .none ∧ t = raiseFault code i.cmd s) ∨ Completed i s t := by
  cases i with
  | init V => exact .inr (Host.Outcome.next.inj h).symm
  | absorb n d =>
    simp only [exec, execAbsorb] at h
    split_ifs at h with h1 h2 h3
    · exact .inl ⟨.sequence, by decide, by simpa using h.symm⟩
    · exact .inl ⟨.lengthOverflow, by decide, by simpa using h.symm⟩
    · exact .inr ⟨by simpa using h1, by omega, h3, by simpa using h.symm⟩
  | finalize =>
    simp only [exec, execFinalize] at h
    split_ifs at h with h1 h2
    · exact .inl ⟨.sequence, by decide, by simpa using h.symm⟩
    · exact .inr ⟨by simpa using h1, h2, by simpa using h.symm⟩
  | readDigest K =>
    simp only [exec, execReadDigest] at h
    split_ifs at h with h1 h2
    · exact .inl ⟨.sequence, by decide, by simpa using h.symm⟩
    · exact .inl ⟨.range, by decide, by simpa using h.symm⟩
    · exact .inr ⟨by simpa using h1, by omega, by simpa using h.symm⟩
  | readReg R => exact .inr (Host.Outcome.next.inj h).symm

/-- A step that answers a next state waited, was reset, met a word that does not decode, or executed a
command. -/
theorem step_cases {s t : State} (h : step s = .next t) :
    (s.pending = [] ∧ t = s) ∨
    (∃ c rest, s.pending = .reset c :: rest ∧ t = { State.reset with pending := rest, responses := s.responses }) ∨
    (∃ r rest, s.pending = .command r :: rest ∧ decode r = none ∧
      t = raiseFault .illegalCmd r.cmd (s.withPending rest)) ∨
    (∃ r rest i, s.pending = .command r :: rest ∧ decode r = some i ∧ exec i (s.withPending rest) = .next t) := by
  unfold step at h
  split at h
  · rename_i e; cases h; exact .inl ⟨e, rfl⟩
  · rename_i c rest e
    refine .inr (.inl ⟨c, rest, e, ?_⟩)
    simp only [resetEvent, Host.Outcome.next.injEq] at h
    rw [← h]; rfl
  · rename_i r rest e
    split at h
    · rename_i i hi
      exact .inr (.inr (.inr ⟨r, rest, i, e, hi, h⟩))
    · rename_i hi
      refine .inr (.inr (.inl ⟨r, rest, e, hi, ?_⟩))
      simpa [illegalCommand] using h.symm

end Sys2Proof.Machine
end

