-- ==== Sys2Proof/Laws/Padding.lean ====
section
/-! SUPPORT. The blocks of a message and the padding tail (41_segmenter.md R106, 42_padding.md). -/
namespace Sys2Proof.Machine

theorem LF_lt_B (v : Variant) : v.LF < v.B ∧ 0 < v.B := by cases v <;> decide

/-- Each data block is a whole block (41_segmenter.md R106). -/
theorem blocksOf_length (v : Variant) (M : List Byte) : ∀ b ∈ blocksOf v M, b.length = v.B := by
  intro b hb
  simp only [blocksOf, List.mem_map, List.mem_range] at hb
  obtain ⟨j, hj, rfl⟩ := hb
  apply slice_length
  have := Nat.div_mul_le_self M.length v.B
  have : (j+1) * v.B ≤ M.length / v.B * v.B := Nat.mul_le_mul_right _ hj
  rw [Nat.add_mul] at this; omega

/-- The data blocks spell the message up to its last whole block. -/
theorem blocksOf_flatten (v : Variant) (M : List Byte) : (blocksOf v M).flatten = M.take (M.length / v.B * v.B) := by
  have gen : ∀ n, n ≤ M.length / v.B → (((List.range n).map fun j => slice M (j * v.B) v.B)).flatten = M.take (n * v.B) := by
    intro n
    induction n with
    | zero => simp
    | succ n ih =>
      intro h
      rw [List.range_succ, List.map_append, List.flatten_append, ih (by omega)]
      simp only [List.map_cons, List.map_nil, List.flatten_cons, List.flatten_nil, List.append_nil, slice]
      rw [Nat.add_mul, Nat.one_mul, List.take_add]
  exact gen _ le_rfl

/-- The tail blocks spell the rest of the padded message (42_padding.md R131, R139). -/
theorem padTail_flatten (v : Variant) (rem : List Byte) (L : Nat) (h : rem.length = L % v.B) :
   (padTail v rem L).flatten = rem ++ [0x80] ++ zeros (zeroCount v L) ++ bytesBe v.LF (8 * L) := by
  have hv := LF_lt_B v
  have hlt : L % v.B < v.B := Nat.mod_lt _ hv.2
  unfold padTail
  split_ifs with hr
  · have : zeroCount v L = v.B - v.LF - rem.length - 1 := by
      unfold zeroCount; rw [h] at *
      cases v <;> simp [Variant.B, Variant.LF] at * <;> omega
    simp [this]
  · have : zeros (zeroCount v L) = zeros (v.B - rem.length - 1) ++ zeros (v.B - v.LF) := by
      simp only [zeros, ← List.replicate_add]
      congr 1
      unfold zeroCount; rw [h] at *
      cases v <;> simp [Variant.B, Variant.LF] at * <;> omega
    simp [this]

/-- Whole blocks are the blocks of what they spell. -/
theorem blocksOf_of_flatten (v : Variant) (blks : List (List Byte)) (h : ∀ b ∈ blks, b.length = v.B) :
    blocksOf v blks.flatten = blks := by
  have hB := (LF_lt_B v).2
  have key : ∀ (blks : List (List Byte)), (∀ b ∈ blks, b.length = v.B) → blks.flatten.length = blks.length * v.B ∧
      ∀ j, j < blks.length → slice blks.flatten (j * v.B) v.B = blks.getD j [] := by
    intro blks
    induction blks with
    | nil => simp
    | cons b bs ih =>
      intro h
      obtain ⟨h1, h2⟩ := ih fun x hx => h x (List.mem_cons_of_mem _ hx)
      have hb := h b (List.mem_cons_self)
      refine ⟨by simp only [List.flatten_cons, List.length_append, hb, h1, List.length_cons]; ring, fun j hj => ?_⟩
      cases j with
      | zero => simp [slice, hb]
      | succ j =>
        have e : (j + 1) * v.B = b.length + j * v.B := by rw [hb]; ring
        rw [List.flatten_cons, e]
        have h2' := h2 j (by simpa using hj)
        simp only [slice] at h2' ⊢
        rw [List.drop_append]
        simpa [List.drop_eq_nil_of_le] using h2'
  obtain ⟨h1, h2⟩ := key blks h
  rw [blocksOf, h1, Nat.mul_div_cancel _ hB]
  apply List.ext_getElem
  · simp
  · intro j hj1 hj2
    simp only [List.getElem_map, List.getElem_range]
    rw [h2 j hj2, List.getD_eq_getElem _ _ hj2]

/-- Each tail block is a whole block (42_padding.md R131). -/
theorem padTail_length (v : Variant) (rem : List Byte) (L : Nat) (h : rem.length < v.B) :
    ∀ blk ∈ padTail v rem L, blk.length = v.B := by
  have hv := LF_lt_B v
  intro b hb
  unfold padTail at hb
  split_ifs at hb <;> simp at hb
  · subst hb; simp; omega
  · rcases hb with rfl | rfl <;> simp <;> omega

/-- The length of the remainder of a message. -/
theorem drop_rem_length (v : Variant) (M : List Byte) :
    (M.drop (M.length / v.B * v.B)).length = M.length % v.B := by
  have := Nat.div_add_mod' M.length v.B
  simp; omega

/-- The blocks of the padded message are the data blocks and then the tail blocks (42_padding.md R139). -/
theorem blocksOf_padded (v : Variant) (M : List Byte) :
    blocksOf v (paddedMessage v M) = blocksOf v M ++ padTail v (M.drop (M.length / v.B * v.B)) M.length := by
  have hd := drop_rem_length v M
  have e : (blocksOf v M ++ padTail v (M.drop (M.length / v.B * v.B)) M.length).flatten = paddedMessage v M := by
    rw [List.flatten_append, blocksOf_flatten, padTail_flatten _ _ _ hd, paddedMessage]
    simp only [← List.append_assoc, List.take_append_drop]
  rw [← e]
  apply blocksOf_of_flatten
  intro b hb
  rcases List.mem_append.mp hb with hb | hb
  · exact blocksOf_length v M b hb
  · exact padTail_length v _ _ (by rw [hd]; exact Nat.mod_lt _ (LF_lt_B v).2) b hb

/-- One more byte that fills no block adds none. -/
theorem blocksOf_snoc_within (v : Variant) (M : List Byte) (b : Byte) (h : M.length % v.B + 1 ≠ v.B) :
    blocksOf v (M ++ [b]) = blocksOf v M := by
  have hB := (LF_lt_B v).2
  have hlt := Nat.mod_lt M.length hB
  have hq : (M.length + 1) / v.B = M.length / v.B := by
    rw [Nat.div_eq_of_lt_le] <;> [skip; skip]
    · have := Nat.div_add_mod' M.length v.B; omega
    · have := Nat.div_add_mod' M.length v.B; rw [Nat.add_mul]; omega
  simp only [blocksOf, List.length_append, List.length_singleton, hq]
  apply List.map_congr_left
  intro j hj
  rw [List.mem_range] at hj
  have : (j + 1) * v.B ≤ M.length / v.B * v.B := Nat.mul_le_mul_right _ hj
  have := Nat.div_mul_le_self M.length v.B
  rw [Nat.add_mul] at *
  simp only [slice]
  rw [List.drop_append_of_le_length (by omega), List.take_append_of_le_length (by simp; omega)]

/-- One more byte that fills a block adds that block. -/
theorem blocksOf_snoc_fills (v : Variant) (M : List Byte) (b : Byte) (h : M.length % v.B + 1 = v.B) :
    blocksOf v (M ++ [b]) = blocksOf v M ++ [M.drop (M.length - M.length % v.B) ++ [b]] := by
  have hdm := Nat.div_add_mod' M.length v.B
  have e : (blocksOf v M ++ [M.drop (M.length - M.length % v.B) ++ [b]]).flatten = M ++ [b] := by
    rw [List.flatten_append, blocksOf_flatten, show M.length - M.length % v.B = M.length / v.B * v.B by omega]
    simp only [List.flatten_cons, List.flatten_nil, List.append_nil, ← List.append_assoc, List.take_append_drop]
  conv_lhs => rw [← e]
  apply blocksOf_of_flatten
  intro x hx
  rcases List.mem_append.mp hx with hx | hx
  · exact blocksOf_length v M x hx
  · simp at hx; subst hx; simp; have := Nat.mod_le M.length v.B; omega

end Sys2Proof.Machine
end

