-- ==== Sys2Proof/Laws/PerInstr.lean ====
section
/-! SUPPORT. The statements made per instruction, one lemma for each constructor of `Instr`. -/
namespace Sys2Proof.Laws

/-- The mask of the instruction's row in the opcode table (30_encoding.md R74). -/
def RowMatch.mask : Instr → Cmd
  | .init _ => 0xFFFEFFFF#32
  | .absorb _ _ => 0xFFF8FFFF#32
  | .finalize => 0xFFFFFFFF#32
  | .readDigest _ => 0xFFF8FFFF#32
  | .readReg _ => 0xFFFCFFFF#32

/-- The match of the instruction's row in the opcode table (30_encoding.md R74). -/
def RowMatch.pattern : Instr → Cmd
  | .init _ => 0x01000000#32
  | .absorb _ _ => 0x02000000#32
  | .finalize => 0x03000000#32
  | .readDigest _ => 0x04000000#32
  | .readReg _ => 0x05000000#32

/-- The command word of an instruction falls under its own row of the opcode table. -/
def RowMatch.Statement (i : Instr) : Prop := (encode i).cmd &&& RowMatch.mask i = RowMatch.pattern i

theorem RowMatch.init (V : Variant) : RowMatch.Statement (.init V) := by cases V <;> rfl

theorem RowMatch.absorb (NM1 : BitVec 3) (din : Din) : RowMatch.Statement (.absorb NM1 din) := by
  have h : ∀ n : BitVec 3,
      ((0x02#8 ++ (0#5 ++ n : BitVec 8) ++ 0#16 : BitVec 32) &&& 0xFFF8FFFF#32) = 0x02000000#32 := by decide
  exact h NM1

theorem RowMatch.finalize : RowMatch.Statement .finalize := rfl

theorem RowMatch.readDigest (K : BitVec 3) : RowMatch.Statement (.readDigest K) := by
  have h : ∀ k : BitVec 3,
      ((0x04#8 ++ (0#5 ++ k : BitVec 8) ++ 0#16 : BitVec 32) &&& 0xFFF8FFFF#32) = 0x04000000#32 := by decide
  exact h K

theorem RowMatch.readReg (REG : Reg) : RowMatch.Statement (.readReg REG) := by cases REG <;> rfl

end Sys2Proof.Laws
end

