-- ==== Sys2Proof/Laws/Segmenter.lean ====
section
/-! SUPPORT. What the segmenter does with the bytes of an ABSORB (41_segmenter.md R102, R103). -/
namespace Sys2Proof.Machine

theorem B_le (v : Variant) : v.B ≤ 128 := by cases v <;> decide
theorem B_pos (v : Variant) : 0 < v.B := by cases v <;> decide

theorem bufPrefix_getElem? (s : State) (n j : Nat) (h : j < n) : (s.bufPrefix n)[j]? = s.buf[j]? := by
  simp [State.bufPrefix, h]

theorem bufPrefix_length (s : State) (n : Nat) (h : n ≤ 128) : (s.bufPrefix n).length = n := by
  simp [State.bufPrefix, h]

/-- A prefix of BUF is determined by its bytes. -/
theorem bufPrefix_eq {s : State} {n : Nat} {bs : List Byte} (hn : n ≤ 128) (hl : bs.length = n)
    (h : ∀ j, j < n → s.buf[j]? = bs[j]?) : s.bufPrefix n = bs := by
  apply List.ext_getElem?
  intro j
  by_cases hj : j < n
  · rw [bufPrefix_getElem? s n j hj, h j hj]
  · rw [List.getElem?_eq_none (by rw [bufPrefix_length _ _ hn]; omega), List.getElem?_eq_none (by omega)]

theorem absorbBytes_append (s : State) (bs cs : List Byte) :
    s.absorbBytes (bs ++ cs) = (s.absorbBytes bs).absorbBytes cs := by
  simp [State.absorbBytes, List.foldl_append]

/-- Bytes that complete no block are stored in order after the buffered ones (41_segmenter.md R102). -/
theorem absorbBytes_within (s : State) (bs : List Byte) (h : s.fill.toNat + bs.length < s.variant.B) :
    ∃ buf : Vector Byte 128,
      s.absorbBytes bs =
        { s with buf := buf, cnt := s.cnt + BitVec.ofNat 125 bs.length,
                 fill := BitVec.ofNat 7 (s.fill.toNat + bs.length) } ∧
      (∀ i, i < bs.length → buf[s.fill.toNat + i]? = bs[i]?) ∧
      (∀ j, j < s.fill.toNat ∨ s.fill.toNat + bs.length ≤ j → buf[j]? = s.buf[j]?) := by
  induction bs generalizing s with
  | nil => exact ⟨s.buf, by simp [State.absorbBytes], by simp, fun j _ => rfl⟩
  | cons b bs ih =>
    have hB := B_le s.variant
    rw [List.length_cons] at h
    have e : s.absorbByte b = (s.storeByte b).withFill (s.fill + 1) := by
      rw [State.absorbByte, if_neg (by omega)]
    have hf : (s.fill + 1).toNat = s.fill.toNat + 1 := by
      rw [BitVec.toNat_add]; simp; omega
    obtain ⟨buf, h1, h2, h3⟩ : ∃ buf : Vector Byte 128,
        ((s.storeByte b).withFill (s.fill + 1)).absorbBytes bs =
          { s with buf := buf, cnt := s.cnt + 1 + BitVec.ofNat 125 bs.length,
                   fill := BitVec.ofNat 7 ((s.fill + 1).toNat + bs.length) } ∧
        (∀ i, i < bs.length → buf[(s.fill + 1).toNat + i]? = bs[i]?) ∧
        (∀ j, j < (s.fill + 1).toNat ∨ (s.fill + 1).toNat + bs.length ≤ j →
          buf[j]? = (s.buf.set s.fill.toNat b s.fill.isLt)[j]?) :=
      ih ((s.storeByte b).withFill (s.fill + 1)) (by simp only [State.withFill_fill, hf]; simp; omega)
    rw [hf] at h1 h2 h3
    have c : s.cnt + 1 + BitVec.ofNat 125 bs.length = s.cnt + BitVec.ofNat 125 (bs.length + 1) := by
      rw [BitVec.add_assoc, BitVec.add_comm 1, BitVec.ofNat_add]; rfl
    rw [c, show s.fill.toNat + 1 + bs.length = s.fill.toNat + (bs.length + 1) by omega] at h1
    refine ⟨buf, by rw [absorbBytes_cons, e, h1]; rfl, ?_, ?_⟩
    · intro i hi
      cases i with
      | zero => rw [h3 _ (by omega)]; simp
      | succ i =>
        simp only [List.length_cons] at hi
        rw [show s.fill.toNat + (i + 1) = s.fill.toNat + 1 + i by omega, h2 i (by omega)]; simp
    · intro j hj
      simp only [List.length_cons] at hj
      rw [h3 j (by omega), Vector.getElem?_set_ne _ (by omega)]

/-- Bytes that complete a block exactly are stored, and the block is folded (41_segmenter.md R103). -/
theorem absorbBytes_fills (s : State) (bs : List Byte) (hf : s.fill.toNat < s.variant.B)
    (h : s.fill.toNat + bs.length = s.variant.B) :
    ∃ buf : Vector Byte 128,
      s.absorbBytes bs =
        { s with buf := buf, cnt := s.cnt + BitVec.ofNat 125 bs.length, fill := 0,
                 H := compress s.variant s.H (s.bufPrefix s.fill.toNat ++ bs) } ∧
      (∀ i, i < bs.length → buf[s.fill.toNat + i]? = bs[i]?) ∧
      (∀ j, j < s.fill.toNat ∨ s.fill.toNat + bs.length ≤ j → buf[j]? = s.buf[j]?) := by
  have hB := B_le s.variant
  have hne : bs ≠ [] := by rintro rfl; simp at h; omega
  obtain ⟨cs, b, rfl⟩ : ∃ cs b, bs = cs ++ [b] :=
    ⟨_, _, (List.dropLast_append_getLast hne).symm⟩
  simp only [List.length_append, List.length_singleton] at h
  obtain ⟨buf, h1, h2, h3⟩ := absorbBytes_within s cs (by omega)
  have hk : (BitVec.ofNat 7 (s.fill.toNat + cs.length)).toNat = s.fill.toNat + cs.length := by
    rw [BitVec.toNat_ofNat, Nat.mod_eq_of_lt (by omega)]
  have hlt : s.fill.toNat + cs.length < 128 := by omega
  refine ⟨buf.set (s.fill.toNat + cs.length) b hlt, ?_, ?_, ?_⟩
  · rw [absorbBytes_append, h1]
    simp only [State.absorbBytes, List.foldl_cons, List.foldl_nil]
    unfold State.absorbByte
    simp only [hk]
    rw [if_pos (by omega)]
    simp only [State.foldFullBlock, State.foldBlock, State.withFill, State.storeByte, hk]
    have c : BitVec.ofNat 125 cs.length + (1 : BitVec 125) = BitVec.ofNat 125 (cs ++ [b]).length := by
      rw [List.length_append, List.length_singleton, BitVec.ofNat_add]; rfl
    simp only [BitVec.add_assoc, c]
    congr 1
    congr 1
    apply bufPrefix_eq hB
    · rw [List.length_append, bufPrefix_length _ _ (by omega)]; simp; omega
    · intro j hj
      simp only
      rw [List.getElem?_append, bufPrefix_length _ _ (by omega)]
      by_cases hj2 : j = s.fill.toNat + cs.length
      · subst hj2
        rw [Vector.getElem?_set_self, if_neg (by omega)]; simp
      · rw [Vector.getElem?_set_ne _ (by omega)]
        split_ifs with hj3
        · rw [h3 j (by omega), bufPrefix_getElem? _ _ _ hj3]
        · obtain ⟨i, rfl⟩ : ∃ i, j = s.fill.toNat + i := ⟨j - s.fill.toNat, by omega⟩
          rw [h2 i (by omega), List.getElem?_append_left (by omega)]; congr 1; omega
  · intro i hi
    simp only [List.length_append, List.length_singleton] at hi
    by_cases hj2 : i = cs.length
    · subst hj2; rw [Vector.getElem?_set_self]; simp
    · rw [Vector.getElem?_set_ne _ (by omega), h2 i (by omega), List.getElem?_append_left (by omega)]
  · intro j hj
    simp only [List.length_append, List.length_singleton] at hj
    rw [Vector.getElem?_set_ne _ (by omega), h3 j (by omega)]

end Sys2Proof.Machine
end

