-- ==== Sys2Proof/Laws/Streaming.lean ====
section
/-! SUPPORT. Absorbing bytes extends the message that the open computation has absorbed
(41_segmenter.md R105). -/
namespace Sys2Proof.Machine

/-- One absorbed byte is one more byte of the message (41_segmenter.md R105). -/
theorem absorbByte_streaming {s : State} {M : List Byte} (b : Byte) (h : s.Streaming M)
    (hM : M.length + 1 < 2 ^ 125) : (s.absorbByte b).Streaming (M ++ [b]) := by
  have hB := B_le s.variant
  have hB0 := B_pos s.variant
  have hcnt := h.cnt
  have hfill := h.fill
  have hlt : s.fill.toNat < s.variant.B := by rw [hfill]; exact Nat.mod_lt _ hB0
  have hc : (s.cnt + 1).toNat = M.length + 1 := by
    rw [BitVec.toNat_add, hcnt]
    exact Nat.mod_eq_of_lt hM
  have hle : M.length % s.variant.B ≤ M.length := Nat.mod_le _ _
  by_cases hf : s.fill.toNat + 1 = s.variant.B
  · obtain ⟨buf, h1, h2, h3⟩ := absorbBytes_fills s [b] hlt (by simpa using hf)
    have h1' : s.absorbByte b = _ := h1
    rw [h1']
    constructor
    · simpa using hc
    · show 0 = (M ++ [b]).length % s.variant.B
      rw [List.length_append, List.length_singleton, Nat.add_mod, ← hfill]
      rw [show 1 % s.variant.B = 1 from Nat.mod_eq_of_lt (by cases s.variant <;> decide), hf, Nat.mod_self]
    · simp [State.bufPrefix]
    · show compress s.variant s.H (s.bufPrefix s.fill.toNat ++ [b])
        = foldCompress s.variant (H0 s.variant) (blocksOf s.variant (M ++ [b]))
      rw [h.buf, h.H, hfill, blocksOf_snoc_fills _ _ _ (by omega)]
      simp [foldCompress, List.foldl_append]
  · obtain ⟨buf, h1, h2, h3⟩ := absorbBytes_within s [b] (by simp; omega)
    have h1' : s.absorbByte b = _ := h1
    rw [h1']
    simp only [List.length_singleton] at *
    have hk : (BitVec.ofNat 7 (s.fill.toNat + 1)).toNat = s.fill.toNat + 1 := by
      rw [BitVec.toNat_ofNat, Nat.mod_eq_of_lt (by omega)]
    constructor
    · simpa using hc
    · simp only [hk, List.length_append, List.length_singleton]
      rw [Nat.add_mod, ← hfill, show 1 % s.variant.B = 1 from Nat.mod_eq_of_lt (by cases s.variant <;> decide), Nat.mod_eq_of_lt (by omega)]
    · simp only [hk]
      have e : (M ++ [b]).drop ((M ++ [b]).length - (s.fill.toNat + 1)) = s.bufPrefix s.fill.toNat ++ [b] := by
        rw [h.buf, List.length_append, List.length_singleton, Nat.add_sub_add_right, List.drop_append_of_le_length (by omega)]
      rw [e]
      apply bufPrefix_eq (by omega)
      · rw [List.length_append, bufPrefix_length _ _ (by omega)]; rfl
      · intro j hj
        rw [List.getElem?_append, bufPrefix_length _ _ (by omega)]
        split_ifs with hj'
        · rw [bufPrefix_getElem? _ _ _ hj']; exact h3 j (.inl hj')
        · rw [show j = s.fill.toNat + 0 by omega]; simpa using h2 0 (by simp)
    · show s.H = foldCompress s.variant (H0 s.variant) (blocksOf s.variant (M ++ [b]))
      rw [h.H, blocksOf_snoc_within _ _ _ (by omega)]

/-- The bytes of an ABSORB are the next bytes of the message (41_segmenter.md R105). -/
theorem absorbBytes_streaming {s : State} {M : List Byte} (bs : List Byte) (h : s.Streaming M)
    (hM : M.length + bs.length < 2 ^ 125) : (s.absorbBytes bs).Streaming (M ++ bs) := by
  induction bs generalizing s M with
  | nil => simpa [State.absorbBytes] using h
  | cons b bs ih =>
    rw [List.length_cons] at hM
    have := ih (absorbByte_streaming b h (by omega)) (by simp; omega)
    simpa [absorbBytes_cons] using this

theorem MAXB_lt (v : Variant) : v.MAXB < 2 ^ 125 := by cases v <;> decide

theorem streaming_respond {s : State} {M : List Byte} (h : s.Streaming M) (ok : Bool) (data : Data) :
    (s.respond ok data).Streaming M := ⟨h.cnt, h.fill, h.buf, h.H⟩

theorem streaming_withPending {s : State} {M : List Byte} (h : s.Streaming M) (p : List HostEvent) :
    (s.withPending p).Streaming M := ⟨h.cnt, h.fill, h.buf, h.H⟩

/-- INIT opens the computation of the empty message (45_driver.md R222). -/
theorem start_streaming (s : State) (V : Variant) : (s.start V).Streaming [] := by
  constructor <;> simp [State.bufPrefix, blocksOf, foldCompress]

/-- The tail has one block or two (42_padding.md R131). -/
theorem tail_length (s : State) : s.tail.length = 1 ∨ s.tail.length = 2 := by
  unfold State.tail padTail; split_ifs <;> simp

/-- FINALIZE completes the computation of the message absorbed (42_padding.md R139, R140). -/
theorem finish_finished {s : State} {M : List Byte} (h : s.Streaming M) (n : BitVec 2) :
    ((s.foldBlocks s.tail).finish n).Finished M := by
  have hle : M.length % s.variant.B ≤ M.length := Nat.mod_le _ _
  rw [foldBlocks_eq]
  constructor
  · exact h.cnt
  · show foldCompress s.variant s.H s.tail = hashMessage s.variant M
    rw [hashMessage, blocksOf_padded, State.tail, h.buf, h.cnt, h.H, h.fill]
    have := Nat.div_add_mod' M.length s.variant.B
    rw [show M.length / s.variant.B * s.variant.B = M.length - M.length % s.variant.B by omega]
    simp [foldCompress, List.foldl_append]

end Sys2Proof.Machine
end

