-- ==== Sys2Proof/Tests/Slice0.lean ====
section
/-! SUPPORT. Tests. Every expected value is the spec's own: 95_test_vectors.md, the examples of the rules, or the
encoding tables of 30_encoding.md. After them, one witness for each obligation that has hypotheses: concrete
values that meet them. -/
namespace Sys2Proof.Tests

open Sys2Proof.Machine

/-! ### Start states of 95_test_vectors.md, section 2 (V-C) -/

/-- The next state of an outcome, if it has one. -/
def after (o : Result) : Option State :=
  match o with
  | .next t => some t
  | .fault _ => none
  | .refused _ => none

/-- One command issued to a core, and what the host sees: the response, STATUS and ERRCMD. -/
def seen (cmd : Cmd) (din : Din) (s : State) : Option (List Response × Data × Cmd) :=
  (after (step (s.withPending [.command ⟨cmd, din⟩]))).map fun t => (t.responses, status t, t.errcmd)

/-- The core right after INIT. -/
def opened (v : Variant) : State := State.reset.start v

/-- `D256`: the core after program P1, with the hash state that P1 lists. -/
def d256 : State :=
  { opened .sha256 with
    H := #v[0xba7816bf#32, 0x8f01cfea#32, 0x414140de#32, 0x5dae2223#32, 0xb00361a3#32, 0x96177a9c#32,
      0xb410ff61#32, 0xf20015ad#32]
    cnt := 3, padblks := 1, phase := .done }

/-- The start states of V-C10: an open computation with this count, and all buffered bytes 0. -/
def counted (v : Variant) (cnt : BitVec 125) (fill : BitVec 7) : State :=
  { opened v with cnt := cnt, fill := fill, buf := Vector.replicate 128 0 }

/-- An open computation in which the bytes `61 62 63` have been absorbed. -/
def holdsAbc (v : Variant) : State :=
  { opened v with
    buf := (((opened v).buf.set 0 0x61).set 1 0x62).set 2 0x63, fill := 3, cnt := 3 }

/-- The core after a fault. -/
def failed : State := { State.reset with phase := .error, errcode := .sequence, errcmd := 0x03000000 }

/-! ### Decoding (30_encoding.md R74, R85), one word for each constructor -/

theorem test_decode_init :
    decode ⟨0b00000001000000000000000000000000#32, 5⟩ = some (.init .sha256) ∧
    decode ⟨0b00000001000000010000000000000000#32, 0⟩ = some (.init .sha512) := by decide

theorem test_decode_absorb :
    decode ⟨0b00000010000000100000000000000000#32, 0x6162630000000000#64⟩
      = some (.absorb 2 0x6162630000000000#64) ∧
    decode ⟨0b00000010000001110000000000000000#32, 0x0001020304050607#64⟩
      = some (.absorb 7 0x0001020304050607#64) := by decide

theorem test_decode_finalize :
    decode ⟨0b00000011000000000000000000000000#32, 0⟩ = some .finalize := by decide

theorem test_decode_readDigest :
    decode ⟨0b00000100000000110000000000000000#32, 0⟩ = some (.readDigest 3) := by decide

theorem test_decode_readReg :
    decode ⟨0b00000101000000000000000000000000#32, 0⟩ = some (.readReg .status) ∧
    decode ⟨0b00000101000000010000000000000000#32, 0⟩ = some (.readReg .lenLo) ∧
    decode ⟨0b00000101000000100000000000000000#32, 0⟩ = some (.readReg .lenHi) ∧
    decode ⟨0b00000101000000110000000000000000#32, 0⟩ = some (.readReg .errcmd) := by decide

/-- P6 and R85: words that do not decode. -/
theorem test_decode_illegal :
    ([0x00000000#32, 0x01020000#32, 0x02080000#32, 0x03000001#32, 0x03010000#32, 0x04080000#32, 0x05040000#32,
      0x06000000#32, 0xFF000000#32].map fun cmd => decode ⟨cmd, 0⟩) = List.replicate 9 none := by decide +kernel

/-- The bits of a table row make that row's instruction. -/
theorem test_decodeTableWord :
    decodeTableWord 32 0x04070000 = some (.readDigest 7) ∧
    decodeTableWord 96 (0x6100000000000000 * 2 ^ 32 + 0x02000000) = some (.absorb 0 0x6100000000000000) := by
  decide

/-! ### Listings (30_encoding.md R83, R84) -/

/-- One ill-formed line for each check of `Listing.wellFormed`. -/
theorem test_wellFormed_refuses :
    Listing.wellFormed (.absorb 0 []) = false ∧
    Listing.wellFormed (.absorb 9 (zeros 9)) = false ∧
    Listing.wellFormed (.absorb 3 [0x61, 0x62]) = false ∧
    Listing.wellFormed (.readDigest 8) = false ∧
    Listing.wellFormed (.readReg 4) = false := by decide

/-- R85: the words of well-formed lines. -/
theorem test_assemble :
    assemble (.init .sha512) = some ⟨0x01010000, 0⟩ ∧
    assemble (.absorb 3 [0x61, 0x62, 0x63]) = some ⟨0x02020000, 0x6162630000000000⟩ ∧
    assemble (.finalize) = some ⟨0x03000000, 0⟩ ∧
    assemble (.readDigest 3) = some ⟨0x04030000, 0⟩ ∧
    assemble (.readReg 3) = some ⟨0x05030000, 0⟩ := by decide

/-- R84: `HASH SHA256, "abc"` is the listing of P1 without its READ_STATUS lines. -/
theorem test_hash_listing :
    expandListing none [.hash .sha256 "abc"] = some
      [.init .sha256, .absorb 3 [0x61, 0x62, 0x63], .finalize, .readDigest 0, .readDigest 1, .readDigest 2,
        .readDigest 3] := by decide +kernel

/-! ### The commands (V-C) -/

/-- V-C1, V-C2. -/
theorem test_init :
    seen 0x01000000 0 State.reset = some ([⟨true, 0⟩], 0x1, 0) ∧
    seen 0x01010000 0 State.reset = some ([⟨true, 0⟩], 0x5, 0) := by decide +kernel

/-- V-C19: INIT restarts from DONE. -/
theorem test_init_restarts : seen 0x01010000 0 d256 = some ([⟨true, 0⟩], 0x5, 0) := by decide +kernel

/-- V-C4, V-C12, V-C10a, V-C10b. -/
theorem test_absorb :
    seen 0x02000000 0x6100000000000000 State.reset = some ([⟨false, 0⟩], 0x23, 0x02000000) ∧
    seen 0x02070000 0x0001020304050607 (opened .sha256) = some ([⟨true, 0⟩], 0x80001, 0) ∧
    seen 0x02020000 0 (counted .sha256 (2 ^ 61 - 3) 61) = some ([⟨false, 0⟩], 0x3D0033, 0x02020000) ∧
    seen 0x02010000 0 (counted .sha256 (2 ^ 61 - 3) 61) = some ([⟨true, 0⟩], 0x3F0001, 0) := by decide +kernel

/-- 41_segmenter.md R101, the corner case: 8 bytes at FILL = B − 4 fold a block and end with FILL = 4, the last
four bytes at the start of BUF. -/
theorem test_absorb_folds :
    (after (exec (.absorb 7 0x0001020304050607) (counted .sha256 60 60))).map
      (fun t => (t.fill, t.cnt, t.bufPrefix 4, digest t.variant t.H))
      = some (4, 68, [4, 5, 6, 7], digest .sha256 (compress .sha256 (H0 .sha256) (zeros 60 ++ [0, 1, 2, 3]))) := by
  decide +kernel

/-- V-C5, V-C18, V-C13. -/
theorem test_finalize_status :
    seen 0x03000000 0 State.reset = some ([⟨false, 0⟩], 0x23, 0x03000000) ∧
    seen 0x03000000 0 d256 = some ([⟨false, 0⟩], 0x123, 0x03000000) ∧
    seen 0x03000000 0 (opened .sha256) = some ([⟨true, 0⟩], 0x102, 0) := by decide +kernel

/-- P1, P2: the hash state that FINALIZE leaves for "abc". -/
theorem test_finalize_abc :
    ((after (exec .finalize (holdsAbc .sha256))).map fun t => digest t.variant t.H)
      = some (bytesBe 32 0xba7816bf8f01cfea414140de5dae2223b00361a396177a9cb410ff61f20015ad) ∧
    ((after (exec .finalize (holdsAbc .sha512))).map fun t => digest t.variant t.H)
      = some (bytesBe 64 0xddaf35a193617abacc417349ae20413112e6fa4e89a97ea20a9eeee64b55d39a2192992a274fc1a836ba3c23a3feebbd454d4423643ce80e2a9ac94fa54ca49f) := by
  decide +kernel

/-- V-C15, V-C16. -/
theorem test_readDigest :
    seen 0x04030000 0 d256 = some ([⟨true, 0xB410FF61F20015AD⟩], 0x102, 0) ∧
    seen 0x04040000 0 d256 = some ([⟨false, 0⟩], 0x143, 0x04040000) := by decide +kernel

/-- V-C6, V-C11. -/
theorem test_readDigest_sequence :
    seen 0x04000000 0 State.reset = some ([⟨false, 0⟩], 0x23, 0x04000000) ∧
    seen 0x04000000 0 (opened .sha256) = some ([⟨false, 0⟩], 0x23, 0x04000000) := by decide +kernel

/-- V-C3, V-C14. -/
theorem test_readReg_status :
    seen 0x05000000 0 State.reset = some ([⟨true, 0⟩], 0, 0) ∧
    seen 0x05000000 0 (opened .sha512) = some ([⟨true, 5⟩], 5, 0) := by decide +kernel

/-- V-C10e, and ERRCMD after a fault. -/
theorem test_readReg_length :
    seen 0x05010000 0 (counted .sha512 (2 ^ 125 - 1) 127)
      = some ([⟨true, 0xFFFFFFFFFFFFFFFF⟩], 0x7F0005, 0) ∧
    seen 0x05020000 0 (counted .sha512 (2 ^ 125 - 1) 127)
      = some ([⟨true, 0x1FFFFFFFFFFFFFFF⟩], 0x7F0005, 0) ∧
    seen 0x05030000 0 failed = some ([⟨true, 0x03000000⟩], 0x23, 0x03000000) := by decide +kernel

/-- V-C7, V-C8, V-C9: words that do not decode, and 60_exceptions.md R264: a second fault leaves the record. -/
theorem test_illegal_words :
    seen 0x02080000 0 State.reset = some ([⟨false, 0⟩], 0x13, 0x02080000) ∧
    seen 0x00000000 0 (opened .sha256) = some ([⟨false, 0⟩], 0x13, 0) ∧
    seen 0x0501FFFF 0 (opened .sha256) = some ([⟨false, 0⟩], 0x13, 0x0501FFFF) ∧
    seen 0x00000000 0 failed = some ([⟨false, 0⟩], 0x23, 0x03000000) := by decide +kernel

/-- The very next step runs the instruction that `withFetchWord` places. -/
theorem test_withFetchWord :
    (after (step (State.reset.withFetchWord 32 0x01010000))).map (fun t => (status t, t.pending))
      = some (5, []) := by decide +kernel

/-! ### Parts of the datapath -/

/-- V-H1. -/
theorem test_sigmas_32 :
    rotr 7 0x12345678#32 = 0xF02468AC#32 ∧ shr 3 0x12345678#32 = 0x02468ACF#32 ∧
    bigSigma0 .sha256 0x12345678#32 = 0x66146474#32 ∧ bigSigma1 .sha256 0x12345678#32 = 0x3561ABDA#32 ∧
    smallSigma0 .sha256 0x12345678#32 = 0xE7FCE6EE#32 ∧ smallSigma1 .sha256 0x12345678#32 = 0xA1F78649#32 := by
  decide +kernel

/-- V-H2. -/
theorem test_sigmas_64 :
    bigSigma0 .sha512 0x0123456789ABCDEF#64 = 0xB7C57A100C7EC1AB#64 ∧
    bigSigma1 .sha512 0x0123456789ABCDEF#64 = 0x7703112333475567#64 ∧
    smallSigma0 .sha512 0x0123456789ABCDEF#64 = 0x6F92C77C6C4F1AA1#64 ∧
    smallSigma1 .sha512 0x0123456789ABCDEF#64 = 0x70A3460DBBD4317A#64 := by decide +kernel

/-- The examples of 43_compression.md R162, R163. -/
theorem test_ch_maj :
    ch 0x12345678#32 0x9ABCDEF0#32 0x0FEDCBA9#32 = 0x1FFDDFF1#32 ∧
    maj 0x12345678#32 0x9ABCDEF0#32 0x0FEDCBA9#32 = 0x1ABCDEF8#32 := by decide +kernel

/-- V-S1: schedule words of the block of "abc". -/
theorem test_schedule :
    ((holdsAbc .sha256).tail.map fun blk => (schedule .sha256 blk).drop 15 |>.take 5)
      = [[0x00000018#32, 0x61626380#32, 0x000F0000#32, 0x7DA86405#32, 0x600003C6#32]] ∧
    ((holdsAbc .sha256).tail.map fun blk => (schedule .sha256 blk)[63]?) = [some 0x12B1EDEB#32] := by
  decide +kernel

/-- V-R1: the working variables after round 0 of "abc". -/
theorem test_round :
    roundUpdate .sha256 (startWorking .sha256 (H0 .sha256)) (0x428a2f98#32, 0x61626380#32)
      = ⟨0x5D6AEBCD#32, 0x6A09E667#32, 0xBB67AE85#32, 0x3C6EF372#32, 0xFA2A4622#32, 0x510E527F#32,
         0x9B05688C#32, 0x1F83D9AB#32⟩ := by decide +kernel

/-- V-P1, V-P2: the number of tail blocks at each side of the boundary, and the trailers of V-C10d and V-C10g. -/
theorem test_padTail :
    (padTail .sha256 (zeros 55) 55).length = 1 ∧ (padTail .sha256 (zeros 56) 56).length = 2 ∧
    (padTail .sha512 (zeros 111) 111).length = 1 ∧ (padTail .sha512 (zeros 112) 112).length = 2 ∧
    ((padTail .sha256 (zeros 63) (2 ^ 61 - 1)).getLast?.map fun blk => blk.drop 56)
      = some [0xff, 0xff, 0xff, 0xff, 0xff, 0xff, 0xff, 0xf8] ∧
    ((padTail .sha512 (zeros 127) (2 ^ 125 - 1)).getLast?.map fun blk => blk.drop 112)
      = some (List.replicate 15 0xff ++ [0xf8]) := by decide +kernel

/-! ### Witnesses: values that meet the hypotheses of each obligation, at the ends of the ranges

An obligation without hypotheses (ReadRegReturnsRegister, InitStartsComputation and the like) has none here. -/

/-- A core whose host has one command to issue. -/
def asked (cmd : Cmd) (s : State) : State := s.withPending [.command ⟨cmd, 0⟩]

theorem witness_DecodeEncodeAgree :
    decode ⟨0x02070000, 0xFFFFFFFFFFFFFFFF⟩ = some (.absorb 7 0xFFFFFFFFFFFFFFFF) := by decide

/-- Each way of being illegal: the two ends of the opcodes, RSV, and a reserved bit under each opcode. -/
theorem witness_IllegalWordsFault :
    (0x00000000#32 = 0x00#8 ++ 0x00#8 ++ 0#16 ∧ decode ⟨0x00000000, 0⟩ = none) ∧
    (0x06000000#32 = 0x06#8 ++ 0x00#8 ++ 0#16 ∧ decode ⟨0x06000000, 0⟩ = none) ∧
    (0xFF000000#32 = 0xFF#8 ++ 0x00#8 ++ 0#16 ∧ decode ⟨0xFF000000, 0⟩ = none) ∧
    (0x05008000#32 = 0x05#8 ++ 0x00#8 ++ 0x8000#16 ∧ decode ⟨0x05008000, 0⟩ = none) ∧
    (0x01800000#32 = 0x01#8 ++ 0x80#8 ++ 0#16 ∧ decode ⟨0x01800000, 0⟩ = none) ∧
    (0x02080000#32 = 0x02#8 ++ 0x08#8 ++ 0#16 ∧ decode ⟨0x02080000, 0⟩ = none) ∧
    (0x03010000#32 = 0x03#8 ++ 0x01#8 ++ 0#16 ∧ decode ⟨0x03010000, 0⟩ = none) ∧
    (0x04080000#32 = 0x04#8 ++ 0x08#8 ++ 0#16 ∧ decode ⟨0x04080000, 0⟩ = none) ∧
    (0x05040000#32 = 0x05#8 ++ 0x04#8 ++ 0#16 ∧ decode ⟨0x05040000, 0⟩ = none) ∧
    (asked 0 State.reset).pending = .command ⟨0, 0⟩ :: [] := by decide +kernel

/-- A command without operand bytes and any two `din`; an ABSORB of one byte and of seven, with `din` that differ
below the bytes. -/
theorem witness_UnusedDinIgnored :
    (∀ NM1 d, decode ⟨0x03000000, 0⟩ = some (.absorb NM1 d) →
      (0 : Din) >>> (64 - 8 * byteCount NM1) = (5 : Din) >>> (64 - 8 * byteCount NM1)) ∧
    (∀ NM1 d, decode ⟨0x02000000, 0x6100000000000000⟩ = some (.absorb NM1 d) →
      (0x6100000000000000 : Din) >>> (64 - 8 * byteCount NM1)
        = (0x61FFFFFFFFFFFFFF : Din) >>> (64 - 8 * byteCount NM1)) ∧
    (∀ NM1 d, decode ⟨0x02060000, 0x6100000000000000⟩ = some (.absorb NM1 d) →
      (0x6100000000000000 : Din) >>> (64 - 8 * byteCount NM1)
        = (0x61000000000000FF : Din) >>> (64 - 8 * byteCount NM1)) := by
  have e1 : decode ⟨0x03000000, 0⟩ = some .finalize := by decide
  have e2 : decode ⟨0x02000000, 0x6100000000000000⟩ = some (.absorb 0 0x6100000000000000) := by decide
  have e3 : decode ⟨0x02060000, 0x6100000000000000⟩ = some (.absorb 6 0x6100000000000000) := by decide
  rw [e1, e2, e3]
  refine ⟨?_, ?_, ?_⟩ <;> intro NM1 d h <;> cases h <;> decide

/-- Accepted lines at both ends of each range, READ_DIGEST 4 among them, and a line refused for each reason. -/
theorem witness_AssembledLinesDecode :
    (∀ l ∈ [Listing.init .sha256, .absorb 1 [0xFF], .absorb 8 (zeros 8), .finalize, .readDigest 0, .readDigest 4,
      .readDigest 7, .readReg 0, .readReg 3, .word 0x00000000 7], (assemble l).isSome = true) ∧
    (∀ l ∈ [Listing.absorb 0 [], .absorb 9 (zeros 9), .absorb 3 (zeros 2), .absorb 3 (zeros 4), .readDigest 8,
      .readReg 4], assemble l = none) := by decide +kernel

/-- Nine bytes: the first line, the last one, the first index past them, and the byte at each end of a line. -/
theorem witness_AbsorbBytesExpansion :
    8 * 0 < (zeros 9).length ∧ 8 * 1 < (zeros 9).length ∧ (zeros 9).length ≤ 8 * 2 ∧ (zeros 8).length ≤ 8 * 1 ∧
    7 < min 8 ((zeros 9).length - 8 * 0) ∧ 0 < min 8 ((zeros 9).length - 8 * 1) ∧
    Listing.absorb 1 [8] ∈ absorbBytesLines [0, 1, 2, 3, 4, 5, 6, 7, 8] ∧ ([] : List Byte) = [] := by
  decide +kernel

theorem witness_StepRunsDecodedInstruction :
    (asked 0x04070000 State.reset).pending = .command ⟨0x04070000, 0⟩ :: [] ∧
    decode ⟨0x04070000, 0⟩ = some (.readDigest 7) ∧
    decodeTableWord 32 0x04070000 = some (.readDigest 7) := by decide +kernel

theorem witness_WaitingHoldsState : State.reset.pending = [] := rfl

theorem witness_ResetEventResets :
    (d256.withPending [.reset none]).pending = .reset none :: [] ∧
    ((opened .sha512).withPending [.reset (some ⟨0x03000000, 0⟩)]).pending
      = .reset (some ⟨0x03000000, 0⟩) :: [] := ⟨rfl, rfl⟩

/-- Counts up to the limit, FILL 0 and B − 1, one byte and eight; the indices at both ends of the stored bytes and one
outside them. -/
theorem witness_AbsorbAppendsBytes :
    (∀ c ∈ [(opened .sha256, 0#3), (counted .sha256 (2 ^ 61 - 3) 61, 1#3), (counted .sha256 63 63, 7#3),
        (opened .sha512, 7#3), (counted .sha512 (2 ^ 125 - 2) 126, 0#3), (counted .sha512 127 127, 7#3)],
      c.1.phase = .absorbing ∧ c.1.cnt.toNat + byteCount c.2 ≤ c.1.variant.MAXB ∧
        c.1.fill.toNat < c.1.variant.B) ∧
    0 < byteCount 7 ∧ 7 < byteCount 7 ∧ (∀ i, i < byteCount 7 → 7 ≠ (63 + i) % 64) := by
  refine ⟨by decide +kernel, by decide, by decide, ?_⟩
  intro i hi
  have : i < 8 := hi
  omega

theorem witness_AbsorbFaults :
    State.reset.phase ≠ .absorbing ∧ d256.phase ≠ .absorbing ∧ failed.phase ≠ .absorbing ∧
    (∀ c ∈ [(counted .sha256 (2 ^ 61 - 1) 63, 0#3), (counted .sha256 (2 ^ 61 - 3) 61, 2#3),
        (counted .sha512 (2 ^ 125 - 1) 127, 7#3)],
      c.1.phase = .absorbing ∧ c.1.variant.MAXB < c.1.cnt.toNat + (c.2.toNat + 1)) := by decide +kernel

/-- Both cases of the tail at both ends of their ranges of FILL. -/
theorem witness_FinalizeFoldsTail :
    ∀ s ∈ [opened .sha256, counted .sha256 55 55, counted .sha256 56 56, counted .sha256 (2 ^ 61 - 1) 63,
        opened .sha512, counted .sha512 111 111, counted .sha512 112 112, counted .sha512 (2 ^ 125 - 1) 127],
      s.phase = .absorbing ∧ s.fill.toNat < s.variant.B ∧ s.fill.toNat = s.cnt.toNat % s.variant.B ∧
        s.cnt.toNat ≤ s.variant.MAXB := by decide +kernel

/-- Each precondition missed, the others met. -/
theorem witness_PreconditionStops :
    ((counted .sha256 0 64).phase = .absorbing ∧
      (counted .sha256 0 64).cnt.toNat + byteCount 0 ≤ (counted .sha256 0 64).variant.MAXB ∧
      (counted .sha256 0 64).variant.B ≤ (counted .sha256 0 64).fill.toNat) ∧
    ((counted .sha256 1 0).phase = .absorbing ∧
      (counted .sha256 1 0).fill.toNat ≠ (counted .sha256 1 0).cnt.toNat % (counted .sha256 1 0).variant.B) ∧
    ((counted .sha256 (2 ^ 61) 0).phase = .absorbing ∧
      (counted .sha256 (2 ^ 61) 0).variant.MAXB < (counted .sha256 (2 ^ 61) 0).cnt.toNat) := by decide +kernel

theorem witness_ReadDigestReturnsGroup :
    d256.phase = .done ∧ (0 : BitVec 3).toNat < 4 ∧ (3 : BitVec 3).toNat < 4 := by decide +kernel

theorem witness_ReadDigestFaults :
    State.reset.phase ≠ .done ∧ (opened .sha256).phase ≠ .done ∧ failed.phase ≠ .done ∧
    d256.phase = .done ∧ d256.variant = .sha256 ∧ 4 ≤ (4 : BitVec 3).toNat ∧ 4 ≤ (7 : BitVec 3).toNat := by
  decide +kernel

theorem witness_FinalizeFaults :
    State.reset.phase ≠ .absorbing ∧ d256.phase ≠ .absorbing ∧ failed.phase ≠ .absorbing := by decide +kernel

/-- A command outside each of the excepted ones that answers a next state, and one that answers ok = 1. -/
theorem witness_WritersOfEachElement :
    exec (.readReg .status) State.reset = .next (State.reset.respond true 0) ∧
    (∀ n d, Instr.readReg .status ≠ .absorb n d) ∧ (∀ V, Instr.readReg .status ≠ .init V) ∧
    Instr.readReg .status ≠ .finalize ∧
    (State.reset.respond true 0).responses = State.reset.responses ++ [⟨true, 0⟩] :=
  ⟨rfl, nofun, nofun, nofun, rfl⟩

theorem witness_OneResponsePerCommand :
    (asked 0x01000000 State.reset).pending = .command ⟨0x01000000, 0⟩ :: [] ∧
    step (asked 0x01000000 State.reset) = .next ((State.reset.start .sha256).respond true 0) ∧
    (asked 0 State.reset).pending = .command ⟨0, 0⟩ :: [] ∧
    step (asked 0 State.reset) = .next (raiseFault .illegalCmd 0 State.reset) := ⟨rfl, rfl, rfl, rfl⟩

theorem witness_ReadsAreRepeatable :
    exec (.readReg .errcmd) failed = .next (failed.respond true 0x03000000) ∧
    (failed.respond true 0x03000000).responses = failed.responses ++ [⟨true, 0x03000000⟩] ∧
    exec (.readDigest 7) { opened .sha512 with phase := .done }
      = .next (State.respond { opened .sha512 with phase := .done } true
          (digestGroup .sha512 (H0 .sha512) 7)) := ⟨rfl, rfl, rfl⟩

theorem witness_FaultsArePrecise :
    step (asked 0x03000000 State.reset) = .next (raiseFault .sequence 0x03000000 State.reset) ∧
    (raiseFault .sequence 0x03000000 State.reset).responses = (asked 0x03000000 State.reset).responses ++ [⟨false, 0⟩] :=
  ⟨rfl, rfl⟩

theorem witness_FaultPriority :
    (asked 0x02080000 State.reset).pending = .command ⟨0x02080000, 0⟩ :: [] ∧
    (asked 0x02080000 State.reset).phase ≠ .error ∧
    step (asked 0x02080000 State.reset) = .next (raiseFault .illegalCmd 0x02080000 State.reset) :=
  ⟨rfl, by decide, rfl⟩

theorem witness_ErrorIsSticky :
    (asked 0x02000000 failed).phase = .error ∧
    step (asked 0x02000000 failed) = .next (raiseFault .sequence 0x02000000 (failed.withPending [])) ∧
    (asked 0x02000000 failed).pending = .command ⟨0x02000000, 0⟩ :: [] ∧
    (∀ REG, decode ⟨0x02000000, 0⟩ ≠ some (.readReg REG)) := ⟨rfl, rfl, rfl, by intro REG; cases REG <;> decide⟩

/-- The largest number of 0, 8 and 16 bytes. -/
theorem witness_BytesAndWordsAgree :
    0 < 2 ^ (8 * 0) ∧ 2 ^ 64 - 1 < 2 ^ (8 * 8) ∧ 2 ^ 128 - 1 < 2 ^ (8 * 16) := by decide

theorem witness_GroupsAreTheDigest :
    d256.phase = .done ∧ ([0#64, 0#64, 0#64, 0#64][3]? = some 0) := by decide +kernel

theorem witness_DigestBytes :
    0 < Variant.sha256.DL ∧ 0 / Variant.sha256.WB < 8 ∧ 31 < Variant.sha256.DL ∧ 31 / Variant.sha256.WB < 8 ∧
    63 < Variant.sha512.DL ∧ 63 / Variant.sha512.WB < 8 := by decide

theorem witness_ChooseAndMajority : 0 < 32 ∧ 63 < 64 := by decide

/-- The ends of both ranges of schedule indices. -/
theorem witness_ScheduleRecurrence :
    0 < 16 ∧ 15 < 16 ∧ (16 ≤ 16 ∧ 16 < Variant.sha256.NR) ∧ (16 ≤ 63 ∧ 63 < Variant.sha256.NR) ∧
    (16 ≤ 79 ∧ 79 < Variant.sha512.NR) := by decide

theorem witness_CompressIsRoundLoop : 0 < Variant.sha256.NR ∧ 63 < Variant.sha256.NR ∧ 79 < Variant.sha512.NR := by
  decide

theorem witness_RoomCondition :
    (zeros 0).length < Variant.sha256.B ∧ (zeros 63).length < Variant.sha256.B ∧
    (zeros 127).length < Variant.sha512.B := by decide +kernel

theorem witness_RoomCaseLayout :
    (zeros 0).length ≤ Variant.sha256.B - Variant.sha256.LF - 1 ∧
    (zeros 55).length ≤ Variant.sha256.B - Variant.sha256.LF - 1 ∧
    (zeros 111).length ≤ Variant.sha512.B - Variant.sha512.LF - 1 ∧ 63 < Variant.sha256.B := by decide +kernel

theorem witness_NoRoomCaseLayout :
    (Variant.sha256.B - Variant.sha256.LF ≤ (zeros 56).length ∧ (zeros 56).length < Variant.sha256.B) ∧
    (Variant.sha256.B - Variant.sha256.LF ≤ (zeros 63).length ∧ (zeros 63).length < Variant.sha256.B) ∧
    (Variant.sha512.B - Variant.sha512.LF ≤ (zeros 127).length ∧ (zeros 127).length < Variant.sha512.B) := by
  decide +kernel

theorem witness_TrailerHoldsBitLength :
    ((zeros 63).length < Variant.sha256.B ∧ 2 ^ 61 - 1 ≤ Variant.sha256.MAXB) ∧
    ((counted .sha512 (2 ^ 125 - 1) 127).fill.toNat < (counted .sha512 (2 ^ 125 - 1) 127).variant.B ∧
      (counted .sha512 (2 ^ 125 - 1) 127).cnt.toNat ≤ (counted .sha512 (2 ^ 125 - 1) 127).variant.MAXB) := by
  decide +kernel

theorem witness_BlockCounts :
    (zeros 55).length = (zeros 119).length % Variant.sha256.B ∧
    (zeros 112).length = (zeros 112).length % Variant.sha512.B := by decide +kernel

theorem witness_PaddingEquivalence :
    zeros 64 ∈ blocksOf .sha256 (zeros 64) ++ padTail .sha256 [] 64 ∧ (64 + 1 + 55 + Variant.sha256.LF) % Variant.sha256.B = 0 := by
  decide +kernel

/-- An open computation and a completed one meet the invariants, so those of the headlines are no empty
hypotheses. -/
theorem witness_opened_inv (v : Variant) : (opened v).Inv := by
  refine ⟨?_, ?_, fun _ => ⟨[], ?_, ?_, ?_, ?_⟩, ?_, ?_, ?_, ?_, ?_, ?_⟩ <;>
    cases v <;> simp [opened, State.start, State.reset, Variant.B, State.bufPrefix, blocksOf, foldCompress]

theorem witness_StepKeepsInvariants :
    (opened .sha256).Inv ∧ step (opened .sha256) = .next (opened .sha256) := ⟨witness_opened_inv _, rfl⟩

theorem witness_StatusFields : (opened .sha512).Inv := witness_opened_inv _

theorem witness_RunsNeverStop : (opened .sha512).Inv := witness_opened_inv _

/-- Two ABSORB commands, and none. -/
theorem witness_GroupingIndependence :
    (([(7#3, 5#64), (0#3, 6#64)].flatMap fun c => messageBytes c.1 c.2).length ≤ Variant.sha256.MAXB) ∧
    (((([] : List (BitVec 3 × Din))).flatMap fun c => messageBytes c.1 c.2).length ≤ Variant.sha512.MAXB) ∧
    (d256.withPending (.command (encode (.init .sha256)) ::
      ([(7#3, 5#64), (0#3, 6#64)].map fun c => HostEvent.command (encode (.absorb c.1 c.2))) ++ [.reset none])).pending =
      .command (encode (.init .sha256)) ::
        ([(7#3, 5#64), (0#3, 6#64)].map fun c => HostEvent.command (encode (.absorb c.1 c.2))) ++ [.reset none] :=
  ⟨by decide +kernel, by decide +kernel, rfl⟩

theorem witness_EndToEndDigest :
    (([(2#3, 0x6162630000000000#64)].flatMap fun c => messageBytes c.1 c.2).length ≤ Variant.sha512.MAXB) ∧
    ∃ s : State, s.pending = .command (encode (.init .sha512)) ::
      ([(2#3, 0x6162630000000000#64)].map fun c => HostEvent.command (encode (.absorb c.1 c.2))) ++
      [.command (encode .finalize)] ++
      ((List.range Variant.sha512.DG).map fun k => HostEvent.command (encode (.readDigest (BitVec.ofNat 3 k)))) :=
  ⟨by decide +kernel, State.reset.withPending _, rfl⟩

/-- Two cores that differ in all of H and BUF before INIT, and two that differ in BUF from FILL on after it. -/
theorem witness_StaleStateUnobservable :
    State.reset.SameVisible { State.reset with H := H0 .sha256, buf := Vector.replicate 128 0 } ∧
    (opened .sha512).SameVisible { opened .sha512 with buf := Vector.replicate 128 0 } ∧
    step (opened .sha512) = .next (opened .sha512) :=
  ⟨⟨H0 .sha256, Vector.replicate 128 0, rfl, fun h => h.elim nofun nofun, nofun⟩,
   ⟨H0 .sha512, Vector.replicate 128 0, rfl, fun _ => rfl, fun _ j h => absurd h (Nat.not_lt_zero j)⟩, rfl⟩

theorem witness_ComputationsAreIndependent :
    (asked 0x01000000 { d256 with responses := [] }).pending = .command (encode (.init .sha256)) :: [] ∧
    (asked 0x01000000 State.reset).pending = (asked 0x01000000 { d256 with responses := [] }).pending ∧
    (asked 0x01000000 State.reset).responses = (asked 0x01000000 { d256 with responses := [] }).responses ∧
    Host.Core.run Sys2Proof.core 1 (asked 0x01000000 State.reset)
      = .next ((State.reset.start .sha256).respond true 0) := ⟨rfl, rfl, rfl, rfl⟩

end Sys2Proof.Tests
end

section
/-! PROOFS of the family of 10_state.md: the fields of STATUS (R33) and the invariants (R40). -/
namespace Sys2Proof.Machine

/-! ### The fields of STATUS -/

section StatusField
/-! STATUS is a zero-extended concatenation (10_state.md R33), so a field is reached by passing the fields to its
right. -/

variable (s : State)

theorem status_phase : (status s).extractLsb' 0 2 = s.phase.code := by
  rw [status, BitVec.extractLsb'_setWidth_of_le (by decide)]
  exact BitVec.extractLsb'_append_eq_right

theorem status_variant : (status s).extractLsb' 2 1 = s.variant.code := by
  rw [status, BitVec.extractLsb'_setWidth_of_le (by decide)]
  rw [BitVec.extractLsb'_append_eq_of_le (by decide)]
  exact BitVec.extractLsb'_append_eq_right

theorem status_reserved_3 : (status s).extractLsb' 3 1 = 0 := by
  rw [status, BitVec.extractLsb'_setWidth_of_le (by decide)]
  iterate 2 rw [BitVec.extractLsb'_append_eq_of_le (by decide)]
  exact BitVec.extractLsb'_append_eq_right

theorem status_errcode : (status s).extractLsb' 4 3 = s.errcode.code := by
  rw [status, BitVec.extractLsb'_setWidth_of_le (by decide)]
  iterate 3 rw [BitVec.extractLsb'_append_eq_of_le (by decide)]
  exact BitVec.extractLsb'_append_eq_right

theorem status_reserved_7 : (status s).extractLsb' 7 1 = 0 := by
  rw [status, BitVec.extractLsb'_setWidth_of_le (by decide)]
  iterate 4 rw [BitVec.extractLsb'_append_eq_of_le (by decide)]
  exact BitVec.extractLsb'_append_eq_right

theorem status_padblks : (status s).extractLsb' 8 2 = s.padblks := by
  rw [status, BitVec.extractLsb'_setWidth_of_le (by decide)]
  iterate 5 rw [BitVec.extractLsb'_append_eq_of_le (by decide)]
  exact BitVec.extractLsb'_append_eq_right

theorem status_reserved_15_10 : (status s).extractLsb' 10 6 = 0 := by
  rw [status, BitVec.extractLsb'_setWidth_of_le (by decide)]
  iterate 6 rw [BitVec.extractLsb'_append_eq_of_le (by decide)]
  exact BitVec.extractLsb'_append_eq_right

theorem status_fill : (status s).extractLsb' 16 7 = s.fill := by
  rw [status, BitVec.extractLsb'_setWidth_of_le (by decide)]
  iterate 7 rw [BitVec.extractLsb'_append_eq_of_le (by decide)]
  exact BitVec.extractLsb'_eq_self

theorem status_reserved_63_23 : (status s).extractLsb' 23 41 = 0 := by
  rw [status, BitVec.setWidth_eq_append (by decide)]
  exact BitVec.extractLsb'_append_eq_left

end StatusField

/-- Settles O28: each field of STATUS is read off the concatenation, and the invariants bound PADBLKS and FILL. -/
theorem statusFields : Obligations.StatusFields := by
  refine ⟨rfl, fun s hs => ?_, fun s => ?_⟩
  · rw [status_padblks, status_fill]
    exact ⟨hs.padblks_ne, hs.fill_lt⟩
  · refine ⟨?_, ?_, status_reserved_3 s, ?_, status_reserved_7 s, status_padblks s, status_reserved_15_10 s,
      status_fill s, status_reserved_63_23 s⟩
    · rw [status_phase]
      cases s.phase <;> rfl
    · rw [status_variant]
      cases s.variant <;> rfl
    · rw [status_errcode]
      cases s.errcode <;> rfl

/-! ### The invariants, phase by phase -/

theorem State.Streaming.fill_lt {s : State} {M : List Byte} (h : s.Streaming M) :
    s.fill.toNat < s.variant.B := by
  rw [h.fill]
  exact Nat.mod_lt _ (B_pos _)

/-- The invariants of an open computation: it streams a message within the limit, no fault stands, and no tail has
been emitted (10_state.md R40). -/
theorem inv_iff_of_absorbing {s : State} (hp : s.phase = .absorbing) :
    s.Inv ↔ (∃ M, s.Streaming M) ∧ s.cnt.toNat ≤ s.variant.MAXB ∧ s.padblks = 0 ∧ s.errcode = .none ∧
      s.errcmd = 0 := by
  constructor
  · intro h
    have hpad : s.padblks = 0 := by
      by_contra hne
      simpa [hp] using h.padblks hne
    exact ⟨h.streaming hp, h.cnt_le, hpad, h.errcode.mp (by simp [hp]), h.errcmd (by simp [hp])⟩
  · rintro ⟨⟨M, hM⟩, hcnt, hpad, hcode, hcmd⟩
    exact
      { fill_lt := hM.fill_lt
        cnt_le := hcnt
        streaming := fun _ => ⟨M, hM⟩
        finished := by simp [hp]
        idle := by simp [hp]
        errcode := by simp [hp, hcode]
        padblks := by simp [hpad]
        errcmd := fun _ => hcmd
        padblks_ne := by simp [hpad] }

/-- What meets the invariants in DONE (10_state.md R40, item 4). -/
theorem inv_of_done {s : State} {M : List Byte} (hp : s.phase = .done) (hM : s.Finished M)
    (hcnt : s.cnt.toNat ≤ s.variant.MAXB) (hfill : s.fill = 0) (hpad : s.padblks = 1 ∨ s.padblks = 2)
    (hcode : s.errcode = .none) (hcmd : s.errcmd = 0) : s.Inv where
  fill_lt := by simpa [hfill] using B_pos s.variant
  cnt_le := hcnt
  streaming := by simp [hp]
  finished := fun _ => ⟨hfill, hpad, M, hM⟩
  idle := by simp [hp]
  errcode := by simp [hp, hcode]
  padblks := fun _ => .inl hp
  errcmd := fun _ => hcmd
  padblks_ne := by rcases hpad with h | h <;> simp [h]

/-- What meets the invariants in IDLE, whatever H and BUF hold (10_state.md R40, item 5). -/
theorem inv_of_idle {s : State} (hp : s.phase = .idle) (hcode : s.errcode = .none) (hcmd : s.errcmd = 0)
    (hcnt : s.cnt = 0) (hfill : s.fill = 0) (hpad : s.padblks = 0) : s.Inv where
  fill_lt := by simpa [hfill] using B_pos s.variant
  cnt_le := by simp [hcnt]
  streaming := by simp [hp]
  finished := by simp [hp]
  idle := fun _ => ⟨hcode, hcmd, hcnt, hfill, hpad⟩
  errcode := by simp [hp, hcode]
  padblks := by simp [hpad]
  errcmd := fun _ => hcmd
  padblks_ne := by simp [hpad]

/-! ### What keeps the invariants -/

/-- The invariants do not speak of the host's lists. -/
theorem State.Inv.withHostLists {s : State} (h : s.Inv) (p : List HostEvent) (r : List Response) :
    State.Inv { s with pending := p, responses := r } where
  fill_lt := h.fill_lt
  cnt_le := h.cnt_le
  streaming hp := (h.streaming hp).imp fun _ hM => ⟨hM.cnt, hM.fill, hM.buf, hM.H⟩
  finished hp :=
    have ⟨hfill, hpad, M, hM⟩ := h.finished hp
    ⟨hfill, hpad, M, hM.cnt, hM.H⟩
  idle := h.idle
  errcode := h.errcode
  padblks := h.padblks
  errcmd := h.errcmd
  padblks_ne := h.padblks_ne

theorem State.Inv.respond {s : State} (h : s.Inv) (ok : Bool) (data : Data) : (s.respond ok data).Inv :=
  h.withHostLists _ _

theorem State.Inv.withPending {s : State} (h : s.Inv) (p : List HostEvent) : (s.withPending p).Inv :=
  h.withHostLists _ _

theorem inv_reset : State.reset.Inv := inv_of_idle rfl rfl rfl rfl rfl rfl

/-- INIT establishes the invariants from any state (45_driver.md R222). -/
theorem inv_start (s : State) (V : Variant) : (s.start V).Inv :=
  (inv_iff_of_absorbing rfl).mpr ⟨⟨[], start_streaming s V⟩, Nat.zero_le _, rfl, rfl, rfl⟩

/-- Taking a fault keeps the invariants: the record is the first fault's (60_exceptions.md R263, R264). -/
theorem State.Inv.raiseFault {s : State} (h : s.Inv) {code : ErrCode} (hcode : code ≠ .none) (cmd : Cmd) :
    (raiseFault code cmd s).Inv where
  fill_lt := by simpa using h.fill_lt
  cnt_le := by simpa using h.cnt_le
  streaming := by simp
  finished := by simp
  idle := by simp
  errcode := by
    have hstands : s.phase = .error → s.errcode ≠ .none := fun hp hnone => h.errcode.mpr hnone hp
    rw [raiseFault_errcode]
    split_ifs with hp
    · simpa using hstands hp
    · simpa using hcode
  padblks := by simp
  errcmd := by simp
  padblks_ne := by simpa using h.padblks_ne

/-- Absorbing bytes within the length limit keeps the invariants (41_segmenter.md R101, R105). -/
theorem State.Inv.absorbBytes {s : State} (h : s.Inv) (hp : s.phase = .absorbing) {bs : List Byte}
    (hle : s.cnt.toNat + bs.length ≤ s.variant.MAXB) : (s.absorbBytes bs).Inv := by
  obtain ⟨⟨M, hM⟩, -, hpad, hcode, hcmd⟩ := (inv_iff_of_absorbing hp).mp h
  obtain ⟨hvar', hp', hpad', hcode', hcmd', -, -⟩ := absorbBytes_frame s bs
  rw [hM.cnt] at hle
  have hM' : (s.absorbBytes bs).Streaming (M ++ bs) :=
    absorbBytes_streaming bs hM (hle.trans_lt (MAXB_lt _))
  have hcnt' : (s.absorbBytes bs).cnt.toNat ≤ (s.absorbBytes bs).variant.MAXB := by
    rwa [hM'.cnt, hvar', List.length_append]
  exact (inv_iff_of_absorbing (hp'.trans hp)).mpr
    ⟨⟨_, hM'⟩, hcnt', hpad'.trans hpad, hcode'.trans hcode, hcmd'.trans hcmd⟩

/-- Folding the tail of an open computation and closing it keeps the invariants (42_padding.md R140). -/
theorem State.Inv.finish_tail {s : State} (h : s.Inv) (hp : s.phase = .absorbing) :
    ((s.foldBlocks s.tail).finish (BitVec.ofNat 2 s.tail.length)).Inv := by
  obtain ⟨⟨M, hM⟩, hcnt, -, hcode, hcmd⟩ := (inv_iff_of_absorbing hp).mp h
  have hpad : BitVec.ofNat 2 s.tail.length = 1 ∨ BitVec.ofNat 2 s.tail.length = 2 :=
    (tail_length s).imp (fun hl => by rw [hl]; rfl) (fun hl => by rw [hl]; rfl)
  refine inv_of_done rfl (finish_finished hM _) ?_ rfl hpad ?_ ?_
  · simpa [foldBlocks_eq] using hcnt
  · simpa [foldBlocks_eq] using hcode
  · simpa [foldBlocks_eq] using hcmd

theorem messageBytes_length (NM1 : BitVec 3) (din : Din) : (messageBytes NM1 din).length = byteCount NM1 := by
  simp [messageBytes]

/-- A command that completes keeps the invariants. -/
theorem State.Inv.completed {s t : State} {i : Instr} (h : s.Inv) (hc : Completed i s t) : t.Inv := by
  cases i with
  | init V =>
    obtain rfl := hc
    exact (inv_start s V).respond true 0
  | absorb NM1 din =>
    obtain ⟨hp, hle, -, rfl⟩ := hc
    rw [← messageBytes_length NM1 din] at hle
    exact (h.absorbBytes hp hle).respond true 0
  | finalize =>
    obtain ⟨hp, -, rfl⟩ := hc
    exact (h.finish_tail hp).respond true 0
  | readDigest K =>
    obtain ⟨-, -, rfl⟩ := hc
    exact h.respond true _
  | readReg REG =>
    obtain rfl := hc
    exact h.respond true _

/-- A command that answers a next state keeps the invariants. -/
theorem State.Inv.exec {s t : State} {i : Instr} (h : s.Inv) (he : exec i s = .next t) : t.Inv := by
  rcases exec_cases he with ⟨code, hcode, rfl⟩ | hc
  · exact h.raiseFault hcode i.cmd
  · exact h.completed hc

/-- Settles O46, by the cases of a step: waiting, reset, a word that does not decode, a command. -/
theorem stepKeepsInvariants : Obligations.StepKeepsInvariants := by
  intro s t h hstep
  rcases step_cases hstep with
    ⟨-, rfl⟩ | ⟨_, rest, -, rfl⟩ | ⟨r, rest, -, -, rfl⟩ | ⟨_, rest, i, -, -, he⟩
  · exact h
  · exact inv_reset.withHostLists rest s.responses
  · exact (h.withPending rest).raiseFault (by decide) r.cmd
  · exact (h.withPending rest).exec he

end Sys2Proof.Machine
end

section
/-! PROOFS of the family of 30_encoding.md: the illegal words (R81) and the `din` that is ignored (R82). -/

namespace Sys2Proof

/-! ### The words that do not decode -/

/-- Masking all but the low `n` bits of a field leaves 0 exactly if its bits from `n` up are 0. -/
theorem and_highMask_eq_zero_iff (b : BitVec 8) {n m : Nat} (h : n + m = 8) :
    b &&& (BitVec.allOnes 8 <<< n) = 0#8 ↔ b.extractLsb' n m = 0#m := by
  simp only [BitVec.eq_of_getLsbD_eq_iff, BitVec.getLsbD_and, BitVec.getLsbD_shiftLeft, BitVec.getLsbD_allOnes,
    BitVec.getLsbD_extractLsb', BitVec.getLsbD_zero]
  constructor
  · intro hb i hi
    simpa [hi, show n + i < 8 by omega, show i < 8 by omega] using hb (n + i) (by omega)
  · intro hb i hi
    by_cases hin : i < n
    · simp [hin]
    · simpa [hi, hin, show i - n < m by omega, show i - n < 8 by omega, show n + (i - n) = i by omega]
        using hb (i - n) (by omega)

/-- An opcode is one of the five of 30_encoding.md R74, or 0x00, or at least 0x06. -/
theorem opcode_cases (OPC : BitVec 8) :
    OPC = 1 ∨ OPC = 2 ∨ OPC = 3 ∨ OPC = 4 ∨ OPC = 5 ∨ OPC = 0 ∨ 6 ≤ OPC.toNat := by
  bv_omega

/-- The illegal words by their fields (30_encoding.md R81). -/
theorem decode_fields_eq_none_iff (OPC ARG : BitVec 8) (RSV : BitVec 16) (din : Din) :
    decode ⟨OPC ++ ARG ++ RSV, din⟩ = none ↔
      OPC = 0 ∨ 6 ≤ OPC.toNat ∨ RSV ≠ 0 ∨
      (OPC = 1 ∧ ARG.extractLsb' 1 7 ≠ 0) ∨ (OPC = 2 ∧ ARG.extractLsb' 3 5 ≠ 0) ∨
      (OPC = 3 ∧ ARG ≠ 0) ∨ (OPC = 4 ∧ ARG.extractLsb' 3 5 ≠ 0) ∨
      (OPC = 5 ∧ ARG.extractLsb' 2 6 ≠ 0) := by
  have hInit : ARG &&& 0xFE = 0 ↔ ARG.extractLsb' 1 7 = 0 :=
    and_highMask_eq_zero_iff ARG (n := 1) (m := 7) rfl
  have hAbsorb : ARG &&& 0xF8 = 0 ↔ ARG.extractLsb' 3 5 = 0 :=
    and_highMask_eq_zero_iff ARG (n := 3) (m := 5) rfl
  have hReg : ARG &&& 0xFC = 0 ↔ ARG.extractLsb' 2 6 = 0 :=
    and_highMask_eq_zero_iff ARG (n := 2) (m := 6) rfl
  simp only [decode_fields, hInit, hAbsorb, hReg]
  by_cases hRSV : RSV = 0
  · rcases opcode_cases OPC with rfl | rfl | rfl | rfl | rfl | rfl | h
    iterate 6
      · simp [hRSV]
    · have hne (n : BitVec 8) (hn : n.toNat < 6) : OPC ≠ n := by
        rintro rfl
        omega
      simp [h, hne]
  · exact iff_of_true (if_neg hRSV) (.inr (.inr (.inl hRSV)))

/-! ### The data operand -/

/-- The instruction with another data operand, which only an ABSORB has. -/
def Instr.withDin (i : Instr) (din : Din) : Instr :=
  match i with
  | .init V => .init V
  | .absorb NM1 _ => .absorb NM1 din
  | .finalize => .finalize
  | .readDigest K => .readDigest K
  | .readReg REG => .readReg REG

/-- The command word alone fixes the decoded command, up to the data operand (30_encoding.md R73, R82). -/
theorem decode_din (cmd : Cmd) (din din' : Din) :
    decode ⟨cmd, din'⟩ = (decode ⟨cmd, din⟩).map (·.withDin din') := by
  unfold decode
  split_ifs <;> rfl

/-- The data operand of a decoded command is the one issued. -/
theorem withDin_of_decode {cmd : Cmd} {din : Din} {i : Instr} (h : decode ⟨cmd, din⟩ = some i) :
    i.withDin din = i := by
  simpa [h] using (decode_din cmd din din).symm

namespace Machine

/-- A message byte read from a `din` without its low `k` bits, which lie below the byte. -/
theorem dinByte_eq_extract_ushiftRight (din : Din) {i k : Nat} (h : k + 8 * i ≤ 56) :
    dinByte din i = (din >>> k).extractLsb' (56 - 8 * i - k) 8 := by
  apply BitVec.eq_of_getLsbD_eq
  intro j hj
  simp only [dinByte, BitVec.getLsbD_extractLsb', BitVec.getLsbD_ushiftRight]
  congr 2
  omega

/-- The message bytes lie above the low `8 · (8 − N)` bits of `din` (20_memory.md R52). -/
theorem messageBytes_congr {NM1 : BitVec 3} {din din' : Din}
    (h : din >>> (64 - 8 * byteCount NM1) = din' >>> (64 - 8 * byteCount NM1)) :
    messageBytes NM1 din = messageBytes NM1 din' := by
  refine List.map_congr_left fun i hi => ?_
  have hi : i < byteCount NM1 := List.mem_range.mp hi
  have hN : byteCount NM1 ≤ 8 := NM1.isLt
  have hk : 64 - 8 * byteCount NM1 + 8 * i ≤ 56 := by omega
  rw [dinByte_eq_extract_ushiftRight din hk, dinByte_eq_extract_ushiftRight din' hk, h]

/-- Commands whose message bytes agree have one outcome, whatever else their data operands hold. -/
theorem exec_withDin {i : Instr} {din : Din} (s : State)
    (h : ∀ NM1 d, i = .absorb NM1 d → messageBytes NM1 din = messageBytes NM1 d) :
    exec (i.withDin din) s = exec i s := by
  cases i with
  | init V => rfl
  | absorb NM1 d =>
    show execAbsorb NM1 din s = execAbsorb NM1 d s
    rw [execAbsorb, execAbsorb, h NM1 d rfl]
    rfl
  | finalize => rfl
  | readDigest K => rfl
  | readReg REG => rfl

/-! ### The step on a command word -/

theorem step_of_decode_none {s : State} {r : Request} {rest : List HostEvent}
    (hp : s.pending = .command r :: rest) (h : decode r = none) :
    step s = .next (raiseFault .illegalCmd r.cmd (s.withPending rest)) := by
  simp [step, hp, h, illegalCommand]

theorem step_of_decode_some {s : State} {r : Request} {rest : List HostEvent} {i : Instr}
    (hp : s.pending = .command r :: rest) (h : decode r = some i) :
    step s = exec i (s.withPending rest) := by
  simp [step, hp, h]

/-- Settles O3, by the decoder on the fields of the word and the step on a word that does not decode. -/
theorem illegalWordsFault : Obligations.IllegalWordsFault := by
  rintro ⟨cmd, din⟩ OPC ARG RSV rfl
  exact ⟨decode_fields_eq_none_iff OPC ARG RSV din, fun h _ _ hp => step_of_decode_none hp h⟩

/-- Settles O4: the two words decode alike up to `din`, and an ABSORB reads its message bytes alone. -/
theorem unusedDinIgnored : Obligations.UnusedDinIgnored := by
  intro s cmd din din' rest hagree
  have hdecode := decode_din cmd din din'
  cases hd : decode ⟨cmd, din⟩ with
  | none =>
    rw [hd] at hdecode
    rw [step_of_decode_none rfl hd, step_of_decode_none rfl hdecode]
    rfl
  | some i =>
    rw [hd] at hdecode
    rw [step_of_decode_some rfl hd, step_of_decode_some rfl hdecode]
    refine (exec_withDin _ ?_).symm
    rintro NM1 d rfl
    have hdin : din = d := by simpa [Instr.withDin] using withDin_of_decode hd
    rw [← hdin]
    exact (messageBytes_congr (hagree NM1 d hd)).symm

end Machine
end Sys2Proof
end

section
/-! PROOFS of the family of 41_segmenter.md: grouping independence (R105). -/

namespace Sys2Proof

/-! ### Encoded commands decode -/

/-- The argument byte of ABSORB and READ_DIGEST: the field in the low three bits, the reserved bits 0. -/
theorem arg3_fields (f : BitVec 3) :
    (0#5 ++ f : BitVec 8) &&& 0xF8#8 = 0#8 ∧ (0#5 ++ f : BitVec 8).extractLsb' 0 3 = f := by
  revert f
  decide

/-- Decoding the words of a command gives it back (30_encoding.md R73, R74). -/
theorem decode_encode (i : Instr) : decode (encode i) = some i := by
  cases i with
  | init V => cases V <;> rfl
  | absorb NM1 din =>
    obtain ⟨hReserved, hField⟩ := arg3_fields NM1
    refine (decode_fields 2 (0#5 ++ NM1) 0 din).trans ?_
    simp [hReserved, hField]
  | finalize => rfl
  | readDigest K =>
    obtain ⟨hReserved, hField⟩ := arg3_fields K
    refine (decode_fields 4 (0#5 ++ K) 0 0).trans ?_
    simp [hReserved, hField]
  | readReg REG => cases REG <;> rfl

namespace Machine

/-! ### Steps and runs -/

/-- The step on an encoded command is that command's execution. -/
theorem step_encode {s : State} {i : Instr} {rest : List HostEvent}
    (hp : s.pending = .command (encode i) :: rest) : step s = exec i (s.withPending rest) :=
  step_of_decode_some hp (decode_encode i)

/-- A run goes on from the state of its first step. -/
theorem run_succ {s t : State} (h : step s = .next t) (k : Nat) :
    Host.Core.run core (k + 1) s = Host.Core.run core k t := by
  have hcore : core.step s = .next t := h
  simp [Host.Core.run, hcore]

/-! ### The open computation -/

/-- A computation of variant `v` is open in `s`, has absorbed exactly `M`, and has what INIT wrote in the other
elements (41_segmenter.md R105, 45_driver.md R222). -/
structure State.Open (s : State) (v : Variant) (M : List Byte) : Prop where
  phase : s.phase = .absorbing
  variant : s.variant = v
  streaming : s.Streaming M
  padblks : s.padblks = 0
  errcode : s.errcode = .none
  errcmd : s.errcmd = 0

theorem State.Open.respond {s : State} {v : Variant} {M : List Byte} (h : s.Open v M) (ok : Bool) (data : Data) :
    (s.respond ok data).Open v M :=
  ⟨h.phase, h.variant, streaming_respond h.streaming ok data, h.padblks, h.errcode, h.errcmd⟩

theorem State.Open.withPending {s : State} {v : Variant} {M : List Byte} (h : s.Open v M) (p : List HostEvent) :
    (s.withPending p).Open v M :=
  ⟨h.phase, h.variant, streaming_withPending h.streaming p, h.padblks, h.errcode, h.errcmd⟩

/-- INIT opens the computation of the empty message, whatever the state before (45_driver.md R222). -/
theorem open_start (s : State) (v : Variant) : (s.start v).Open v [] :=
  ⟨rfl, rfl, start_streaming s v, rfl, rfl, rfl⟩

/-- Bytes within the length limit extend the message of the open computation (41_segmenter.md R102, R105). -/
theorem State.Open.absorbBytes {s : State} {v : Variant} {M bs : List Byte} (h : s.Open v M)
    (hle : M.length + bs.length ≤ v.MAXB) : (s.absorbBytes bs).Open v (M ++ bs) := by
  obtain ⟨hvariant, hphase, hpadblks, herrcode, herrcmd, -, -⟩ := absorbBytes_frame s bs
  exact
    { phase := hphase.trans h.phase
      variant := hvariant.trans h.variant
      streaming := absorbBytes_streaming bs h.streaming (hle.trans_lt (MAXB_lt v))
      padblks := hpadblks.trans h.padblks
      errcode := herrcode.trans h.errcode
      errcmd := herrcmd.trans h.errcmd }

/-- An ABSORB within the length limit completes in an open computation (41_segmenter.md R101). -/
theorem State.Open.exec_absorb {s : State} {v : Variant} {M : List Byte} (h : s.Open v M) {NM1 : BitVec 3} {din : Din}
    (hle : M.length + (messageBytes NM1 din).length ≤ v.MAXB) :
    exec (.absorb NM1 din) s = .next ((s.absorbBytes (messageBytes NM1 din)).respond true 0) := by
  rw [messageBytes_length, ← h.streaming.cnt, ← h.variant] at hle
  show execAbsorb NM1 din s = _
  rw [execAbsorb, if_neg (not_not.mpr h.phase), if_neg hle.not_gt, if_pos h.streaming.fill_lt]

/-- The step on an ABSORB within the length limit answers (1, 0) and extends the message of the open computation. -/
theorem State.Open.step_absorb {s : State} {v : Variant} {M : List Byte} (h : s.Open v M) {NM1 : BitVec 3} {din : Din}
    {rest : List HostEvent} (hp : s.pending = .command (encode (.absorb NM1 din)) :: rest)
    (hle : M.length + (messageBytes NM1 din).length ≤ v.MAXB) :
    ∃ t, step s = .next t ∧ t.pending = rest ∧ t.responses = s.responses ++ [⟨true, 0⟩] ∧
      t.Open v (M ++ messageBytes NM1 din) := by
  have h := h.withPending rest
  obtain ⟨-, -, -, -, -, hpending, hresponses⟩ := absorbBytes_frame (s.withPending rest) (messageBytes NM1 din)
  refine ⟨_, (step_encode hp).trans (h.exec_absorb hle), hpending, ?_, (h.absorbBytes hle).respond true 0⟩
  rw [State.respond_responses, hresponses, State.withPending_responses]

/-! ### Runs of INIT and ABSORB commands -/

/-- The message that a list of ABSORB operands carries. -/
def absorbedMessage (cmds : List (BitVec 3 × Din)) : List Byte := cmds.flatMap fun c => messageBytes c.1 c.2

@[simp] theorem absorbedMessage_nil : absorbedMessage [] = [] := rfl

@[simp] theorem absorbedMessage_cons (NM1 : BitVec 3) (din : Din) (cmds : List (BitVec 3 × Din)) :
    absorbedMessage ((NM1, din) :: cmds) = messageBytes NM1 din ++ absorbedMessage cmds := rfl

/-- The host's events for a list of ABSORB operands. -/
def absorbEvents (cmds : List (BitVec 3 × Din)) : List HostEvent :=
  cmds.map fun c => .command (encode (.absorb c.1 c.2))

/-- `t` follows `s` after `n` commands that all answered (1, 0), with `rest` still to do. -/
structure AnsweredOk (s t : State) (n : Nat) (rest : List HostEvent) : Prop where
  run : Host.Core.run core n s = .next t
  pending : t.pending = rest
  responses : t.responses = s.responses ++ List.replicate n ⟨true, 0⟩

/-- A command answered (1, 0) before `n` others answered so. -/
theorem AnsweredOk.cons {s t u : State} {n : Nat} {rest : List HostEvent} (hstep : step s = .next t)
    (hresp : t.responses = s.responses ++ [⟨true, 0⟩]) (h : AnsweredOk t u n rest) : AnsweredOk s u (n + 1) rest where
  run := (run_succ hstep n).trans h.run
  pending := h.pending
  responses := by rw [h.responses, hresp, List.append_assoc, List.replicate_succ, List.singleton_append]

/-- ABSORB commands within the length limit, in any grouping, append their bytes to the message of the open
computation. -/
theorem State.Open.run_absorbs {s : State} {v : Variant} {M : List Byte} (h : s.Open v M)
    (cmds : List (BitVec 3 × Din)) {rest : List HostEvent} (hp : s.pending = absorbEvents cmds ++ rest)
    (hle : M.length + (absorbedMessage cmds).length ≤ v.MAXB) :
    ∃ t, AnsweredOk s t cmds.length rest ∧ t.Open v (M ++ absorbedMessage cmds) := by
  induction cmds generalizing s M with
  | nil => exact ⟨s, ⟨rfl, hp, by simp⟩, by simpa using h⟩
  | cons c cmds ih =>
    obtain ⟨NM1, din⟩ := c
    rw [absorbedMessage_cons, List.length_append] at hle
    have hp : s.pending = .command (encode (.absorb NM1 din)) :: (absorbEvents cmds ++ rest) := hp
    obtain ⟨s₁, hstep, hpending, hresponses, h₁⟩ := h.step_absorb hp (by omega)
    obtain ⟨t, hrun, ht⟩ := ih h₁ hpending (by rw [List.length_append]; omega)
    refine ⟨t, hrun.cons hstep hresponses, ?_⟩
    rwa [absorbedMessage_cons, ← List.append_assoc]

/-- INIT and ABSORB commands within the length limit, from any state, leave the computation open with the message
they carry. -/
theorem run_init_absorbs {s : State} {v : Variant} {cmds : List (BitVec 3 × Din)} {rest : List HostEvent}
    (hp : s.pending = .command (encode (.init v)) :: absorbEvents cmds ++ rest)
    (hle : (absorbedMessage cmds).length ≤ v.MAXB) :
    ∃ t, AnsweredOk s t (cmds.length + 1) rest ∧ t.Open v (absorbedMessage cmds) := by
  have hopen : (((s.withPending (absorbEvents cmds ++ rest)).start v).respond true 0).Open v [] :=
    (open_start _ v).respond true 0
  obtain ⟨t, hrun, ht⟩ := hopen.run_absorbs cmds rfl (by simpa using hle)
  exact ⟨t, hrun.cons (step_encode hp) rfl, ht⟩

/-- Settles O48, by induction on the ABSORB commands from the state that INIT leaves. -/
theorem groupingIndependence : Obligations.GroupingIndependence := by
  intro s v cmds rest hle hp
  obtain ⟨t, hrun, ht⟩ := run_init_absorbs hp hle
  exact ⟨t, hrun.run, ht.phase, ht.variant, ht.streaming, ht.padblks, ht.errcode, ht.errcmd, hrun.pending,
    hrun.responses⟩

end Machine
end Sys2Proof
end

section
/-! PROOFS of the family of 42_padding.md: the tail blocks (R132 to R134), the trailer (R136) and the padded message
(R139). -/

namespace Sys2Proof.Machine

/-! ### The two forms of the tail -/

/-- The tail where the remainder, the marker and the trailer fit one block (42_padding.md R133). -/
theorem padTail_of_room {v : Variant} {rem : List Byte} (L : Nat) (h : rem.length ≤ v.B - v.LF - 1) :
    padTail v rem L = [rem ++ [0x80] ++ zeros (v.B - v.LF - rem.length - 1) ++ bytesBe v.LF (8 * L)] := by
  have hLF := (LF_lt_B v).1
  exact if_pos (by omega)

/-- The tail where the trailer needs a second block (42_padding.md R134). -/
theorem padTail_of_noRoom {v : Variant} {rem : List Byte} (L : Nat) (h : v.B - v.LF ≤ rem.length) :
    padTail v rem L =
      [rem ++ [0x80] ++ zeros (v.B - rem.length - 1), zeros (v.B - v.LF) ++ bytesBe v.LF (8 * L)] :=
  if_neg (by omega)

theorem room_or_noRoom (v : Variant) (rem : List Byte) :
    rem.length ≤ v.B - v.LF - 1 ∨ v.B - v.LF ≤ rem.length := by
  omega

theorem padTail_length_eq_one_iff (v : Variant) (rem : List Byte) (L : Nat) :
    (padTail v rem L).length = 1 ↔ rem.length ≤ v.B - v.LF - 1 := by
  have hLF := (LF_lt_B v).1
  obtain h | h := room_or_noRoom v rem
  · simp [padTail_of_room L h, h]
  · have hnot : ¬ rem.length ≤ v.B - v.LF - 1 := by omega
    simp [padTail_of_noRoom L h, hnot]

theorem padTail_length_eq_two_iff (v : Variant) (rem : List Byte) (L : Nat) :
    (padTail v rem L).length = 2 ↔ v.B - v.LF ≤ rem.length := by
  have hLF := (LF_lt_B v).1
  obtain h | h := room_or_noRoom v rem
  · have hnot : ¬ v.B - v.LF ≤ rem.length := by omega
    simp [padTail_of_room L h, hnot]
  · simp [padTail_of_noRoom L h, h]

/-- Settles O38: the room condition `r ≤ B − LF − 1` at the sizes of each variant. -/
theorem roomCondition : Obligations.RoomCondition := by
  intro v rem L _
  rw [padTail_length_eq_one_iff, padTail_length_eq_two_iff]
  cases v <;> exact ⟨Iff.rfl, Iff.rfl⟩

/-! ### The bytes of the tail blocks -/

theorem zeros_getElem? {n j : Nat} (h : j < n) : (zeros n)[j]? = some 0 := by
  simp [zeros, h]

/-- The remainder, the marker and zeros: the part that both cases of the layout begin with. -/
theorem marked_getElem? {rem : List Byte} {n j : Nat} (h : j < rem.length + 1 + n) :
    (rem ++ [0x80] ++ zeros n)[j]? =
      if j < rem.length then rem[j]? else if j = rem.length then some 0x80 else some 0 := by
  obtain hlt | rfl | hgt := Nat.lt_trichotomy j rem.length
  · rw [List.append_assoc, List.getElem?_append_left hlt, if_pos hlt]
  · simp
  · have hz : (zeros n)[j - (rem.length + 1)]? = some 0 := zeros_getElem? (by omega)
    rw [List.getElem?_append_right (by simp; omega), if_neg (by omega), if_neg (by omega)]
    simpa using hz

/-- Settles O39: in front of the trailer stand the remainder, the marker and zeros. -/
theorem roomCaseLayout : Obligations.RoomCaseLayout := by
  intro v rem L h
  have hLF := (LF_lt_B v).1
  have hfront : (rem ++ [0x80] ++ zeros (v.B - v.LF - rem.length - 1)).length = v.B - v.LF := by
    simp; omega
  refine ⟨_, padTail_of_room L h, by rw [List.length_append, hfront, bytesBe_length]; omega, fun j _ => ?_⟩
  rw [List.getElem?_append, hfront]
  split
  next hj =>
    rw [marked_getElem? (by omega)]
  next hj =>
    rw [if_neg (by omega), if_neg (by omega)]

/-- Settles O40: the first block is the remainder, the marker and zeros, the second zeros and the trailer. -/
theorem noRoomCaseLayout : Obligations.NoRoomCaseLayout := by
  intro v rem L h hlt
  have hLF := (LF_lt_B v).1
  refine ⟨_, _, padTail_of_noRoom L h, by simp; omega, by simp; omega, fun j hj => ?_, fun j _ => ?_⟩
  · exact marked_getElem? (by omega)
  · rw [List.getElem?_append, zeros_length]
    split
    next hj => exact zeros_getElem? hj
    next => rfl

/-! ### The trailer -/

/-- In both cases the last tail block ends with the length field, which starts at byte `B − LF`. -/
theorem padTail_getLast? (v : Variant) (rem : List Byte) (L : Nat) :
    ∃ front, (padTail v rem L).getLast? = some (front ++ bytesBe v.LF (8 * L)) ∧ front.length = v.B - v.LF := by
  obtain h | h := room_or_noRoom v rem
  · have hLF := (LF_lt_B v).1
    exact ⟨_, by rw [padTail_of_room L h]; rfl, by simp; omega⟩
  · exact ⟨_, by rw [padTail_of_noRoom L h]; rfl, zeros_length _⟩

/-- The bit length of a message within the limit fits the length field (41_segmenter.md R104). -/
theorem bitLength_lt {v : Variant} {L : Nat} (h : L ≤ v.MAXB) : 8 * L < 2 ^ (8 * v.LF) := by
  cases v <;> simp [Variant.MAXB, Variant.LF] at * <;> omega

theorem trailer_padTail {v : Variant} (rem : List Byte) {L : Nat} (h : L ≤ v.MAXB) :
    ∃ blk, (padTail v rem L).getLast? = some blk ∧ wordBe (slice blk (v.B - v.LF) v.LF) = 8 * L := by
  obtain ⟨front, hlast, hfront⟩ := padTail_getLast? v rem L
  refine ⟨_, hlast, ?_⟩
  rw [slice_append_right _ _ _ _ hfront (bytesBe_length _ _), wordBe_bytesBe, Nat.mod_eq_of_lt (bitLength_lt h)]

/-- Settles O41: the tail of an open computation is the tail of its buffered bytes and CNT. -/
theorem trailerHoldsBitLength : Obligations.TrailerHoldsBitLength :=
  ⟨fun _ rem _ _ hL => trailer_padTail rem hL, fun _ _ hcnt => trailer_padTail _ hcnt⟩

/-! ### The padded message -/

theorem zeroCount_fills (v : Variant) (L : Nat) : (L + 1 + zeroCount v L + v.LF) % v.B = 0 := by
  cases v <;> simp only [zeroCount, Variant.B, Variant.LF] <;> omega

theorem zeroCount_le {v : Variant} {L k : Nat} (h : (L + 1 + k + v.LF) % v.B = 0) : zeroCount v L ≤ k := by
  cases v <;> simp only [zeroCount, Variant.B, Variant.LF] at * <;> omega

/-- The blocks folded for a message spell its padded form (42_padding.md R139). -/
theorem messageBlocks_flatten (v : Variant) (M : List Byte) :
    (blocksOf v M ++ padTail v (M.drop (M.length / v.B * v.B)) M.length).flatten = paddedMessage v M := by
  rw [List.flatten_append, blocksOf_flatten, padTail_flatten _ _ _ (drop_rem_length v M), paddedMessage]
  simp only [← List.append_assoc, List.take_append_drop]

/-- Settles O43: the blocks folded are the blocks of the padded message, and `zeroCount` is the least `k`. -/
theorem paddingEquivalence : Obligations.PaddingEquivalence := by
  intro v M
  refine ⟨?_, zeroCount v M.length, zeroCount_fills v _, fun _ => zeroCount_le, messageBlocks_flatten v M⟩
  rw [← blocksOf_padded]
  exact blocksOf_length v _

end Sys2Proof.Machine
end

section
/-! PROOFS of the family of 43_compression.md: the word operations (R162 to R167), the message schedule (R170, R171)
and the round loop (R172 to R177). -/

namespace Sys2Proof.Machine

/-! ### The sigma functions -/

section Rotation
/-! A rotation keeps the two words whose bits are all equal. -/

variable {w : Nat}

@[simp] theorem rotr_zero (n : Nat) : rotr n 0#w = 0#w := by
  simp [rotr]

@[simp] theorem shr_zero (n : Nat) : shr n 0#w = 0#w :=
  BitVec.zero_ushiftRight

theorem rotr_allOnes {n : Nat} (h : n < w) : rotr n (BitVec.allOnes w) = BitVec.allOnes w := by
  rw [rotr_eq_rotateRight n _ h]
  ext i hi
  rw [BitVec.getElem_rotateRight]
  split <;> simp

/-- The exclusive or of three copies of the word of ones is that word. -/
theorem xor_rotr_allOnes {a b c : Nat} (ha : a < w) (hb : b < w) (hc : c < w) :
    rotr a (BitVec.allOnes w) ^^^ rotr b (BitVec.allOnes w) ^^^ rotr c (BitVec.allOnes w) = BitVec.allOnes w := by
  rw [rotr_allOnes ha, rotr_allOnes hb, rotr_allOnes hc, BitVec.xor_self, BitVec.zero_xor]

end Rotation

/-- Both triples of rotation amounts of a variant stay below the word width. -/
theorem bigSigma_amounts_lt (v : Variant) :
    (v.S0.1 < v.W ∧ v.S0.2.1 < v.W ∧ v.S0.2.2 < v.W) ∧ (v.S1.1 < v.W ∧ v.S1.2.1 < v.W ∧ v.S1.2.2 < v.W) := by
  cases v <;> decide

/-- The exclusive or of three rotations by amounts below the width, with the library's rotation. -/
theorem xor_rotr_rotr_rotr {w a b c : Nat} (x : BitVec w) (ha : a < w) (hb : b < w) (hc : c < w) :
    rotr a x ^^^ rotr b x ^^^ rotr c x = x.rotateRight a ^^^ x.rotateRight b ^^^ x.rotateRight c := by
  rw [rotr_eq_rotateRight a x ha, rotr_eq_rotateRight b x hb, rotr_eq_rotateRight c x hc]

/-- The exclusive or of two rotations by amounts below the width and a shift, with the library's operations. -/
theorem xor_rotr_rotr_shr {w a b : Nat} (c : Nat) (x : BitVec w) (ha : a < w) (hb : b < w) :
    rotr a x ^^^ rotr b x ^^^ shr c x = x.rotateRight a ^^^ x.rotateRight b ^^^ x >>> c := by
  rw [rotr_eq_rotateRight a x ha, rotr_eq_rotateRight b x hb, shr]

/-- Settles O33: every amount is below the word width, so the model's rotations are the library's. -/
theorem sigmasAreRotations : Obligations.SigmasAreRotations := by
  refine ⟨fun x => ⟨?_, ?_, ?_, ?_⟩, fun x => ⟨?_, ?_, ?_, ?_⟩, fun v => ⟨?_, ?_, ?_, ?_, ?_, ?_⟩, ?_⟩
  case refine_1 | refine_2 | refine_5 | refine_6 =>
    exact xor_rotr_rotr_rotr x (by decide) (by decide) (by decide)
  case refine_3 | refine_4 | refine_7 | refine_8 =>
    exact xor_rotr_rotr_shr _ x (by decide) (by decide)
  · simp [bigSigma0]
  · simp [bigSigma1]
  · simp [smallSigma0]
  · simp [smallSigma1]
  · obtain ⟨⟨h1, h2, h3⟩, -⟩ := bigSigma_amounts_lt v
    exact xor_rotr_allOnes h1 h2 h3
  · obtain ⟨-, h1, h2, h3⟩ := bigSigma_amounts_lt v
    exact xor_rotr_allOnes h1 h2 h3
  · decide

/-! ### Ch and Maj -/

section ChooseMajority

variable {w : Nat} (x y z : BitVec w)

theorem getLsbD_ch {i : Nat} (hi : i < w) :
    (ch x y z).getLsbD i = if x.getLsbD i then y.getLsbD i else z.getLsbD i := by
  simp only [ch, BitVec.getLsbD_xor, BitVec.getLsbD_and, BitVec.getLsbD_not, hi, decide_true, Bool.true_and]
  cases x.getLsbD i <;> simp

theorem getLsbD_maj (i : Nat) :
    (maj x y z).getLsbD i =
      decide (2 ≤ (x.getLsbD i).toNat + (y.getLsbD i).toNat + (z.getLsbD i).toNat) := by
  simp only [maj, BitVec.getLsbD_xor, BitVec.getLsbD_and]
  generalize x.getLsbD i = a, y.getLsbD i = b, z.getLsbD i = c
  revert a b c
  decide

theorem ch_allOnes : ch (BitVec.allOnes w) y z = y := by
  simp [ch]

theorem ch_zero : ch 0 y z = z := by
  simp [ch]

end ChooseMajority

/-- Settles O34, bit by bit. -/
theorem chooseAndMajority : Obligations.ChooseAndMajority := fun _ x y z =>
  ⟨fun _ hi => getLsbD_ch x y z hi, fun i _ => getLsbD_maj x y z i, ch_allOnes y z, ch_zero y z⟩

/-! ### The message schedule -/

theorem blockWords_getElem? {v : Variant} (blk : List Byte) {t : Nat} (h : t < 16) :
    (blockWords v blk)[t]? = some (BitVec.ofNat v.W (wordBe (slice blk (v.WB * t) v.WB))) := by
  simp [blockWords, h]

/-- The block's 16 words are followed by `NR − 16` more. -/
theorem sixteen_add_NR_sub (v : Variant) : 16 + (v.NR - 16) = v.NR := by
  cases v <;> rfl

theorem schedule_length (v : Variant) (blk : List Byte) : (schedule v blk).length = v.NR := by
  obtain ⟨hlen, -, -⟩ := extendSchedule_spec v (v.NR - 16) (blockWords v blk) (blockWords_length v blk).ge
  rw [schedule, hlen, blockWords_length, sixteen_add_NR_sub]

/-- Settles O35: extending the block's words by the recurrence keeps them in front. -/
theorem scheduleRecurrence : Obligations.ScheduleRecurrence := by
  intro v blk
  obtain ⟨-, hfirst, hlater⟩ := extendSchedule_spec v (v.NR - 16) (blockWords v blk) (blockWords_length v blk).ge
  rw [blockWords_length] at hfirst hlater
  rw [sixteen_add_NR_sub] at hlater
  refine ⟨?_, fun t ht => ?_, hlater⟩
  · rw [schedule_length]
    cases v <;> rfl
  · exact (hfirst t ht).trans (blockWords_getElem? blk ht)

/-! ### The round loop -/

/-- The working variables before round `t`: those that the first `t` rounds of `runRounds` leave
(43_compression.md R176). -/
def workingAt (v : Variant) (H : Words v) (blk : List Byte) (t : Nat) : Working v.W :=
  (((K v).zip (schedule v blk)).take t).foldl (roundUpdate v) (startWorking v H)

section RoundLoop

variable (v : Variant) (H : Words v) (blk : List Byte)

theorem workingAt_zero : workingAt v H blk 0 = startWorking v H := rfl

theorem roundInputs_length : ((K v).zip (schedule v blk)).length = v.NR := by
  rw [List.length_zip, K_length, schedule_length, Nat.min_self]

theorem roundInputs_getElem? {t : Nat} (h : t < v.NR) :
    ((K v).zip (schedule v blk))[t]? = some ((K v).getD t 0, (schedule v blk).getD t 0) := by
  have hK : t < (K v).length := by rwa [K_length]
  have hw : t < (schedule v blk).length := by rwa [schedule_length]
  simp [hK, hw]

theorem workingAt_succ {t : Nat} (h : t < v.NR) :
    workingAt v H blk (t + 1) =
      roundUpdate v (workingAt v H blk t) ((K v).getD t 0, (schedule v blk).getD t 0) := by
  simp only [workingAt, List.take_add_one, roundInputs_getElem? v blk h, Option.toList_some, List.foldl_append,
    List.foldl_cons, List.foldl_nil]

/-- After `NR` rounds the working variables are those of the whole loop. -/
theorem workingAt_NR : workingAt v H blk v.NR = runRounds v (startWorking v H) (schedule v blk) := by
  rw [workingAt, List.take_of_length_le (roundInputs_length v blk).le, runRounds]

theorem compress_eq_feedForward : compress v H blk = feedForward v H (workingAt v H blk v.NR) := by
  rw [compress, workingAt_NR]

end RoundLoop

/-- Settles O36: the working variables before each round are `workingAt`. -/
theorem compressIsRoundLoop : Obligations.CompressIsRoundLoop := by
  intro v H blk
  refine ⟨workingAt v H blk, workingAt_zero v H blk, fun t ht T1 T2 hT1 hT2 => ?_, compress_eq_feedForward v H blk⟩
  have hT1 : T1 = t1 v (workingAt v H blk t) ((K v).getD t 0) ((schedule v blk).getD t 0) := hT1
  have hT2 : T2 = t2 v (workingAt v H blk t) := hT2
  rw [workingAt_succ v H blk ht, hT1, hT2]
  exact ⟨rfl, rfl, rfl, rfl, rfl, rfl, rfl, rfl⟩

end Sys2Proof.Machine
end

section
/-! PROOFS of the family of 44_variant_constants.md: the check values of the round constants (R203, R204) and the
relation between the tables of the two variants (R205). -/

namespace Sys2Proof.Machine

/-- Adding words modulo `2^w` one after another is reducing the sum of their numbers once. The check sums of the
tables are evaluated in this form: on the words themselves the elaborator's recursion limit stops the evaluation. -/
theorem foldl_add_eq_ofNat_sum {w : Nat} (l : List (BitVec w)) :
    l.foldl (· + ·) 0 = BitVec.ofNat w (l.map BitVec.toNat).sum := by
  rw [← List.sum_eq_foldl]
  induction l with
  | nil => rfl
  | cons x l ih => simp [ih, BitVec.ofNat_add]

theorem K_sha256_sum : (K .sha256).foldl (· + ·) 0 = 0x941D1755#32 :=
  (foldl_add_eq_ofNat_sum K256).trans rfl

theorem K_sha512_sum : (K .sha512).foldl (· + ·) 0 = 0x9BDE35DFFDA2DFFD#64 :=
  (foldl_add_eq_ofNat_sum K512).trans rfl

theorem K_sha256_xor : (K .sha256).foldl (· ^^^ ·) 0 = 0x95C49CF5#32 := by rfl

theorem K_sha512_xor : (K .sha512).foldl (· ^^^ ·) 0 = 0xD4B82F4E9D920E3B#64 := by rfl

theorem K_sha512_high_half :
    ((K .sha512).take 64).map (fun x : BitVec 64 => (x >>> 32).setWidth 32) = K .sha256 := by rfl

theorem H0_sha512_high_half :
    (H0 .sha512).toList.map (fun x : BitVec 64 => (x >>> 32).setWidth 32) = (H0 .sha256).toList := by rfl

/-- Settles O37: the tables are literals, so each check value and each half is evaluated, the sums as sums of numbers. -/
theorem constantTables : Obligations.ConstantTables :=
  ⟨K_length .sha256, K_length .sha512, K_sha256_sum, K_sha256_xor, K_sha512_sum, K_sha512_xor,
    K_sha512_high_half, H0_sha512_high_half⟩

end Sys2Proof.Machine
end

section
/-! PROOFS of the family of 45_driver.md: the response to each command (R220), the digest and its groups (R224 to
R227), and the digest of a whole message (R228). -/

namespace Sys2Proof.Machine

/-! ### The digest byte by byte -/

theorem WB_pos (v : Variant) : 0 < v.WB := by cases v <;> decide

theorem digest_getElem? {v : Variant} (H : Words v) {j : Nat} (h : j / v.WB < 8) :
    (digest v H)[j]? = some (H[j / v.WB].extractLsb' (8 * (v.WB - 1 - j % v.WB)) 8) := by
  have hword : H.toList[j / v.WB]? = some H[j / v.WB] := by simp [h]
  rw [digest, flatMap_getElem? _ v.WB (fun _ => bytesBe_length _ _) _ _ (WB_pos v), hword, Option.bind_some,
    bytesBe_getElem? _ _ _ (Nat.mod_lt _ (WB_pos v))]
  rfl

/-- Settles O31: each word of H gives WB bytes, and byte `j` is byte `j mod WB` of word `j div WB`. -/
theorem digestBytes : Obligations.DigestBytes := by
  refine fun v H => ⟨?_, fun j _ h => digest_getElem? H h⟩
  rw [digest_length]
  cases v <;> rfl

/-! ### The digest by groups -/

/-- The slices of `m` bytes, in order, spell the beginning of the sequence they are taken from. -/
theorem flatMap_slice (bs : List Byte) (m n : Nat) :
    (List.range n).flatMap (fun k => slice bs (m * k) m) = bs.take (m * n) := by
  induction n with
  | zero => simp
  | succ n ih =>
    rw [List.range_succ, List.flatMap_append, ih, List.flatMap_singleton, slice, Nat.mul_succ, List.take_add]

/-- The groups of 8 bytes are all of the digest (00_scope.md R10). -/
theorem digest_length_eq_groups (v : Variant) (H : Words v) : (digest v H).length = 8 * v.DG := by
  rw [digest_length]
  cases v <;> rfl

/-- A digest group as 8 big-endian bytes is its slice of the digest (45_driver.md R226). -/
theorem bytesBe_digestGroup {v : Variant} (H : Words v) {k : Nat} (hk : k < v.DG) :
    bytesBe 8 (digestGroup v H k).toNat = slice (digest v H) (8 * k) 8 := by
  have hlen : (slice (digest v H) (8 * k) 8).length = 8 :=
    slice_length _ _ _ (by rw [digest_length_eq_groups]; omega)
  have hlt : wordBe (slice (digest v H) (8 * k) 8) < 2 ^ 64 := by
    simpa [hlen] using wordBe_lt (slice (digest v H) (8 * k) 8)
  have hbytes := bytesBe_wordBe (slice (digest v H) (8 * k) 8)
  rw [digestGroup, BitVec.toNat_ofNat, Nat.mod_eq_of_lt hlt]
  rwa [hlen] at hbytes

/-- The groups that READ_DIGEST 0 to DG − 1 read from the hash state `H` (45_driver.md R227). -/
def digestGroups (v : Variant) (H : Words v) : List Data := (List.range v.DG).map (digestGroup v H)

theorem digestGroups_length (v : Variant) (H : Words v) : (digestGroups v H).length = v.DG := by
  simp [digestGroups]

theorem digestGroups_getElem?_eq_some_iff {v : Variant} {H : Words v} {k : Nat} {data : Data} :
    (digestGroups v H)[k]? = some data ↔ k < v.DG ∧ digestGroup v H k = data := by
  simp [digestGroups, List.getElem?_eq_some_iff]

/-- The groups in order spell the digest (45_driver.md R227). -/
theorem digestGroups_flatMap_bytesBe (v : Variant) (H : Words v) :
    (digestGroups v H).flatMap (fun data => bytesBe 8 data.toNat) = digest v H := by
  calc (digestGroups v H).flatMap (fun data => bytesBe 8 data.toNat)
      = (List.range v.DG).flatMap (fun k => bytesBe 8 (digestGroup v H k).toNat) := List.flatMap_map ..
    _ = (List.range v.DG).flatMap (fun k => slice (digest v H) (8 * k) 8) :=
        List.flatMap_congr fun _ hk => bytesBe_digestGroup H (List.mem_range.mp hk)
    _ = (digest v H).take (8 * v.DG) := flatMap_slice _ _ _
    _ = digest v H := by rw [← digest_length_eq_groups v H, List.take_length]

/-! ### READ_DIGEST in DONE -/

theorem DG_le (v : Variant) : v.DG ≤ 8 := by cases v <;> decide

/-- In DONE, READ_DIGEST answers group `k` for `k` below DG (45_driver.md R226). -/
theorem exec_readDigest_of_done {s : State} (hp : s.phase = .done) {k : Nat} (hk : k < s.variant.DG) :
    exec (.readDigest (BitVec.ofNat 3 k)) s = .next (s.respond true (digestGroup s.variant s.H k)) := by
  have hk8 : (BitVec.ofNat 3 k).toNat = k := Nat.mod_eq_of_lt (hk.trans_le (DG_le _))
  show execReadDigest (BitVec.ofNat 3 k) s = _
  rw [execReadDigest, hk8, if_neg (not_not.mpr hp), if_neg hk.not_ge]

/-- Settles O32: the groups are the slices of the digest, and READ_DIGEST answers each. -/
theorem groupsAreTheDigest : Obligations.GroupsAreTheDigest := by
  refine fun s hp => ⟨digestGroups s.variant s.H, digestGroups_length _ _, fun k data hdata => ?_,
    digestGroups_flatMap_bytesBe _ _⟩
  obtain ⟨hk, rfl⟩ := digestGroups_getElem?_eq_some_iff.mp hdata
  exact exec_readDigest_of_done hp hk

/-! ### One response for each command -/

/-- The data that a command answers in `s` when it completes (45_driver.md R220). -/
def answerData (s : State) : Instr → Data
  | .init _ => 0
  | .absorb _ _ => 0
  | .finalize => 0
  | .readDigest K => digestGroup s.variant s.H K.toNat
  | .readReg REG => regValue s REG

/-- A command that completes gives one response and leaves the host's list. -/
theorem Completed.respond {i : Instr} {s t : State} (h : Completed i s t) :
    t.responses = s.responses ++ [⟨true, answerData s i⟩] ∧ t.pending = s.pending := by
  cases i with
  | init V =>
    obtain rfl := h
    exact ⟨rfl, rfl⟩
  | absorb NM1 din =>
    obtain ⟨-, -, -, rfl⟩ := h
    obtain ⟨-, -, -, -, -, hpending, hresponses⟩ := absorbBytes_frame s (messageBytes NM1 din)
    exact ⟨by rw [State.respond_responses, hresponses]; rfl, hpending⟩
  | finalize =>
    obtain ⟨-, -, rfl⟩ := h
    rw [foldBlocks_eq]
    exact ⟨rfl, rfl⟩
  | readDigest K =>
    obtain ⟨-, -, rfl⟩ := h
    exact ⟨rfl, rfl⟩
  | readReg REG =>
    obtain rfl := h
    exact ⟨rfl, rfl⟩

/-- A step on a command takes a fault of that command's state or completes the decoded command. -/
theorem step_command_cases {s t : State} {r : Request} {rest : List HostEvent}
    (hp : s.pending = .command r :: rest) (h : step s = .next t) :
    (∃ code cmd, t = raiseFault code cmd (s.withPending rest)) ∨
    ∃ i, decode r = some i ∧ Completed i (s.withPending rest) t := by
  cases hd : decode r with
  | none =>
    rw [step_of_decode_none hp hd] at h
    exact .inl ⟨_, _, (Host.Outcome.next.inj h).symm⟩
  | some i =>
    rw [step_of_decode_some hp hd] at h
    obtain ⟨code, -, ht⟩ | hc := exec_cases h
    · exact .inl ⟨code, i.cmd, ht⟩
    · exact .inr ⟨i, rfl, hc⟩

/-- Settles O21: a step on a command takes a fault or completes, and each gives one response. -/
theorem oneResponsePerCommand : Obligations.OneResponsePerCommand := by
  intro s t r rest hp hstep
  obtain ⟨code, cmd, rfl⟩ | ⟨i, hd, hc⟩ := step_command_cases hp hstep
  · exact ⟨false, 0, raiseFault_responses .., raiseFault_pending .., fun _ => ⟨rfl, raiseFault_phase ..⟩, nofun⟩
  · obtain ⟨hresponses, hpending⟩ := hc.respond
    refine ⟨true, _, hresponses, hpending, nofun, fun _ => ⟨i, hd, ?_⟩⟩
    cases i <;> rfl

/-! ### FINALIZE closes the computation -/

/-- The computation of variant `v` is complete in `s`, and its message was `M` (10_state.md R40, item 4). -/
structure State.Closed (s : State) (v : Variant) (M : List Byte) : Prop where
  phase : s.phase = .done
  variant : s.variant = v
  finished : s.Finished M

/-- The digest that a complete computation holds is that of its message (45_driver.md R228). -/
theorem State.Closed.digest_eq {s : State} {v : Variant} {M : List Byte} (h : s.Closed v M) :
    digest s.variant s.H = digest v (hashMessage v M) := by
  obtain ⟨-, rfl, hM⟩ := h
  rw [hM.H]

/-- FINALIZE completes in an open computation within the length limit (42_padding.md R140). -/
theorem State.Open.exec_finalize {s : State} {v : Variant} {M : List Byte} (h : s.Open v M)
    (hle : M.length ≤ v.MAXB) :
    exec .finalize s = .next (((s.foldBlocks s.tail).finish (BitVec.ofNat 2 s.tail.length)).respond true 0) := by
  have hpad : padPrecondition s.variant s.fill.toNat s.cnt.toNat = true := by
    have hfill : s.fill.toNat = s.cnt.toNat % s.variant.B := by rw [h.streaming.fill, h.streaming.cnt]
    have hcnt : s.cnt.toNat ≤ s.variant.MAXB := by rwa [h.streaming.cnt, h.variant]
    simp [padPrecondition, h.streaming.fill_lt, ← hfill, hcnt]
  show execFinalize s = _
  rw [execFinalize, if_neg (not_not.mpr h.phase), if_pos hpad]

/-- The step on a FINALIZE answers (1, 0) and closes the open computation. -/
theorem State.Open.step_finalize {s : State} {v : Variant} {M : List Byte} (h : s.Open v M)
    {rest : List HostEvent} (hp : s.pending = .command (encode .finalize) :: rest) (hle : M.length ≤ v.MAXB) :
    ∃ t, step s = .next t ∧ t.pending = rest ∧ t.responses = s.responses ++ [⟨true, 0⟩] ∧ t.Closed v M := by
  have h := h.withPending rest
  have hM := finish_finished h.streaming (BitVec.ofNat 2 (s.withPending rest).tail.length)
  refine ⟨_, (step_encode hp).trans (h.exec_finalize hle), ?_, ?_, rfl, ?_, hM.cnt, hM.H⟩
  · simp [foldBlocks_eq]
  · simp [foldBlocks_eq]
  · simpa [foldBlocks_eq] using h.variant

/-! ### Runs of INIT, ABSORB, FINALIZE and READ_DIGEST commands -/

/-- A run of `m + n` steps is one of `m` steps and, from the state it ends in, one of `n`. -/
theorem run_add {C : Host.Core} {s t : C.State} {m : Nat} (h : C.run m s = .next t) (n : Nat) :
    C.run (m + n) s = C.run n t := by
  induction m generalizing s with
  | zero =>
    obtain rfl : s = t := Host.Outcome.next.inj h
    rw [Nat.zero_add]
  | succ m ih =>
    rw [Nat.add_right_comm]
    cases hstep : C.step s with
    | next u =>
      simp only [Host.Core.run, hstep] at h ⊢
      exact ih h
    | fault r => simp [Host.Core.run, hstep] at h
    | refused r => simp [Host.Core.run, hstep] at h

/-- A command answered (1, 0) after `n` others answered so. -/
theorem AnsweredOk.snoc {s t u : State} {n : Nat} {rest rest' : List HostEvent} (h : AnsweredOk s t n rest)
    (hstep : step t = .next u) (hpending : u.pending = rest') (hresp : u.responses = t.responses ++ [⟨true, 0⟩]) :
    AnsweredOk s u (n + 1) rest' where
  run := (run_add h.run 1).trans (run_succ hstep 0)
  pending := hpending
  responses := by rw [hresp, h.responses, List.append_assoc, ← List.replicate_succ']

/-- INIT, ABSORB commands within the length limit and FINALIZE, from any state, close the computation of the message
they carry. -/
theorem run_init_absorbs_finalize {s : State} {v : Variant} {cmds : List (BitVec 3 × Din)} {rest : List HostEvent}
    (hp : s.pending = .command (encode (.init v)) :: absorbEvents cmds ++ .command (encode .finalize) :: rest)
    (hle : (absorbedMessage cmds).length ≤ v.MAXB) :
    ∃ t, AnsweredOk s t (cmds.length + 2) rest ∧ t.Closed v (absorbedMessage cmds) := by
  obtain ⟨t, hrun, ht⟩ := run_init_absorbs hp hle
  obtain ⟨u, hstep, hpending, hresponses, hu⟩ := ht.step_finalize hrun.pending hle
  exact ⟨u, hrun.snoc hstep hpending hresponses, hu⟩

/-- The host's events that read the digest groups of the indices `ks`. -/
def readEvents (ks : List Nat) : List HostEvent :=
  ks.map fun k => .command (encode (.readDigest (BitVec.ofNat 3 k)))

/-- The state after the host has read the digest groups of the indices `ks`, with `rest` still to do. -/
def State.afterReads (s : State) (ks : List Nat) (rest : List HostEvent) : State :=
  { s with
    pending := rest
    responses := s.responses ++ ks.map fun k => ⟨true, digestGroup s.variant s.H k⟩ }

/-- In DONE, the step on a READ_DIGEST below DG answers its group and changes nothing else (45_driver.md R226). -/
theorem step_readDigest_of_done {s : State} {k : Nat} {rest : List HostEvent} (hphase : s.phase = .done)
    (hp : s.pending = .command (encode (.readDigest (BitVec.ofNat 3 k))) :: rest) (hk : k < s.variant.DG) :
    step s = .next (s.afterReads [k] rest) :=
  (step_encode hp).trans (exec_readDigest_of_done (s := s.withPending rest) hphase hk)

theorem afterReads_afterReads (s : State) (ks ks' : List Nat) (rest rest' : List HostEvent) :
    (s.afterReads ks rest).afterReads ks' rest' = s.afterReads (ks ++ ks') rest' := by
  simp [State.afterReads]

/-- In DONE, READ_DIGEST commands below DG answer their groups in order and change nothing else. -/
theorem run_reads {s : State} {ks : List Nat} {rest : List HostEvent} (hphase : s.phase = .done)
    (hp : s.pending = readEvents ks ++ rest) (hks : ∀ k ∈ ks, k < s.variant.DG) :
    Host.Core.run core ks.length s = .next (s.afterReads ks rest) := by
  induction ks generalizing s with
  | nil =>
    have hp : s.pending = rest := hp
    simp [Host.Core.run, State.afterReads, ← hp]
  | cons k ks ih =>
    obtain ⟨hk, hks⟩ := List.forall_mem_cons.mp hks
    have hp : s.pending = .command (encode (.readDigest (BitVec.ofNat 3 k))) :: (readEvents ks ++ rest) := hp
    have hrest := ih (s := s.afterReads [k] (readEvents ks ++ rest)) hphase rfl hks
    rw [afterReads_afterReads] at hrest
    exact (run_succ (step_readDigest_of_done hphase hp hk) ks.length).trans hrest

/-- Settles O49: INIT, the ABSORB commands and FINALIZE close the computation of the message, and READ_DIGEST 0 to
DG − 1 then return the groups of its digest. -/
theorem endToEndDigest : Obligations.EndToEndDigest := by
  intro s v cmds hle hp
  have hp : s.pending = .command (encode (.init v)) :: absorbEvents cmds ++
      .command (encode .finalize) :: readEvents (List.range v.DG) := hp.trans (List.append_assoc ..)
  have hlen : s.pending.length = cmds.length + 2 + (List.range v.DG).length := by
    simp [hp, absorbEvents, readEvents]; omega
  obtain ⟨t, hrun, ht⟩ := run_init_absorbs_finalize hp hle
  have hreads : Host.Core.run core (List.range v.DG).length t = .next (t.afterReads (List.range v.DG) []) :=
    run_reads ht.phase (by simpa using hrun.pending) (by simp [ht.variant])
  refine ⟨t.afterReads (List.range v.DG) [], digestGroups t.variant t.H, ?_, ht.phase, rfl, ?_, ?_⟩
  · rw [hlen]
    exact (run_add hrun.run _).trans hreads
  · simp [State.afterReads, hrun.responses, digestGroups, ht.variant]
  · exact (digestGroups_flatMap_bytesBe _ _).trans ht.digest_eq

end Sys2Proof.Machine
end

section
/-! PROOFS of the family of 60_exceptions.md: the phase table (R262), fault entry (R263), ERROR (R264), precise
faults (R265) and the order of the causes (R266). -/

namespace Sys2Proof.Machine

/-! ### Fault entry -/

/-- With a fault standing, a fault gives its response and nothing else (60_exceptions.md R264). -/
theorem raiseFault_of_error {s : State} (hp : s.phase = .error) (code : ErrCode) (cmd : Cmd) :
    raiseFault code cmd s = s.respond false 0 := by
  rw [raiseFault, if_pos hp]

/-- Settles O24: the record is written exactly if none stands, and one that stands has its PHASE already. -/
theorem faultEntry : Obligations.FaultEntry := by
  intro code cmd s
  by_cases hp : s.phase = .error
  · rw [raiseFault_of_error hp, if_pos hp, if_pos hp, ← hp]
    rfl
  · rw [raiseFault, if_neg hp, if_neg hp, if_neg hp]
    rfl

/-- A command that completes answers ok = 1. -/
theorem Completed.responses_ne {i : Instr} {s t : State} (h : Completed i s t) (data : Data) :
    t.responses ≠ s.responses ++ [⟨false, data⟩] := by
  obtain ⟨hresponses, -⟩ := h.respond
  simp [hresponses]

/-! ### The cause of a command's fault -/

/-- The cause for which a decoded command is a fault, in the order of 60_exceptions.md R266: the phase, then the
length or the range. -/
def faultCause (s : State) : Instr → Option ErrCode
  | .init _ => none
  | .absorb NM1 _ =>
    if s.phase ≠ .absorbing then some .sequence
    else if s.variant.MAXB < s.cnt.toNat + byteCount NM1 then some .lengthOverflow
    else none
  | .finalize => if s.phase ≠ .absorbing then some .sequence else none
  | .readDigest K =>
    if s.phase ≠ .done then some .sequence
    else if s.variant.DG ≤ K.toNat then some .range
    else none
  | .readReg _ => none

/-- A command with a cause is fault entry with it. -/
theorem exec_of_faultCause_eq_some {i : Instr} {s : State} {code : ErrCode} (h : faultCause s i = some code) :
    exec i s = .next (raiseFault code i.cmd s) := by
  cases i with
  | init V => cases h
  | absorb NM1 din =>
    simp only [faultCause] at h
    show execAbsorb NM1 din s = _
    split_ifs at h with hphase hlen <;> cases h
    · rw [execAbsorb, if_pos hphase]
    · rw [execAbsorb, if_neg hphase, if_pos hlen]
  | finalize =>
    simp only [faultCause] at h
    show execFinalize s = _
    split_ifs at h with hphase
    cases h
    rw [execFinalize, if_pos hphase]
  | readDigest K =>
    simp only [faultCause] at h
    show execReadDigest K s = _
    split_ifs at h with hphase hrange <;> cases h
    · rw [execReadDigest, if_pos hphase]
    · rw [execReadDigest, if_neg hphase, if_pos hrange]
  | readReg REG => cases h

/-- A command without a cause completes if it answers a next state. -/
theorem completed_of_faultCause_eq_none {i : Instr} {s t : State} (h : faultCause s i = none)
    (he : exec i s = .next t) : Completed i s t := by
  cases i with
  | init V => exact (Host.Outcome.next.inj he).symm
  | absorb NM1 din =>
    simp only [faultCause] at h
    change execAbsorb NM1 din s = _ at he
    split_ifs at h with hphase hlen
    rw [execAbsorb, if_neg hphase, if_neg hlen] at he
    split_ifs at he with hfill
    exact ⟨not_not.mp hphase, not_lt.mp hlen, hfill, (Host.Outcome.next.inj he).symm⟩
  | finalize =>
    simp only [faultCause] at h
    change execFinalize s = _ at he
    split_ifs at h with hphase
    rw [execFinalize, if_neg hphase] at he
    split_ifs at he with hpad
    exact ⟨not_not.mp hphase, hpad, (Host.Outcome.next.inj he).symm⟩
  | readDigest K =>
    simp only [faultCause] at h
    change execReadDigest K s = _ at he
    split_ifs at h with hphase hrange
    rw [execReadDigest, if_neg hphase, if_neg hrange] at he
    exact ⟨not_not.mp hphase, not_le.mp hrange, (Host.Outcome.next.inj he).symm⟩
  | readReg REG => exact (Host.Outcome.next.inj he).symm

/-! ### The phase table -/

/-- In ERROR, the only cause of a decoded command is SEQUENCE (60_exceptions.md R262). -/
theorem eq_sequence_of_faultCause_of_error {i : Instr} {s : State} {code : ErrCode} (hp : s.phase = .error)
    (h : faultCause s i = some code) : code = .sequence := by
  cases i with
  | init V => cases h
  | absorb NM1 din => simpa [faultCause, hp] using h.symm
  | finalize => simpa [faultCause, hp] using h.symm
  | readDigest K => simpa [faultCause, hp] using h.symm
  | readReg REG => cases h

/-- A command's effect is fault entry with SEQUENCE exactly if that is its cause. -/
theorem exec_eq_sequence_iff (i : Instr) (s : State) :
    exec i s = .next (raiseFault .sequence i.cmd s) ↔ faultCause s i = some .sequence := by
  refine ⟨fun he => ?_, exec_of_faultCause_eq_some⟩
  cases hc : faultCause s i with
  | none => exact absurd (raiseFault_responses ..) ((completed_of_faultCause_eq_none hc he).responses_ne 0)
  | some code =>
    rw [exec_of_faultCause_eq_some hc] at he
    have heq := congrArg State.errcode (Host.Outcome.next.inj he)
    by_cases hp : s.phase = .error
    · rw [eq_sequence_of_faultCause_of_error hp hc]
    · simpa [raiseFault_errcode, hp] using heq

/-- Settles O23: SEQUENCE is the effect exactly if it is the cause, and it is the cause in the phases that the table
does not permit. -/
theorem phasePermissions : Obligations.PhasePermissions := by
  intro i s
  rw [exec_eq_sequence_iff]
  cases i with
  | init V => simp [faultCause]
  | absorb NM1 din =>
    by_cases hphase : s.phase = .absorbing
    · simp [faultCause, hphase]
    · simp [faultCause, hphase]
  | finalize => simp [faultCause]
  | readDigest K =>
    by_cases hphase : s.phase = .done
    · simp [faultCause, hphase]
    · simp [faultCause, hphase]
  | readReg REG => simp [faultCause]

/-! ### The command word of a decoded command -/

/-- An argument byte whose bits from `n` up are 0 is its low field after zeros. -/
theorem zeros_append_lowField (b : BitVec 8) {n m : Nat} (h : m + n = 8)
    (hb : b &&& (BitVec.allOnes 8 <<< n) = 0#8) : (0#m ++ b.extractLsb' 0 n).cast h = b := by
  refine BitVec.eq_of_getLsbD_eq fun i hi => ?_
  have hbit := congrArg (·.getLsbD i) hb
  simp only [BitVec.getLsbD_and, BitVec.getLsbD_shiftLeft, BitVec.getLsbD_allOnes, BitVec.getLsbD_zero] at hbit
  rw [BitVec.getLsbD_cast, BitVec.getLsbD_append]
  by_cases hin : i < n
  · simp [hin]
  · simpa [hin, hi, show i - n < 8 by omega] using hbit.symm

/-- A decoded command has the word it was decoded from (30_encoding.md R71, R73). -/
theorem cmd_of_decode {r : Request} {i : Instr} (h : decode r = some i) : i.cmd = r.cmd := by
  obtain ⟨cmd, din⟩ := r
  obtain ⟨OPC, ARG, RSV, rfl⟩ : ∃ (OPC ARG : BitVec 8) (RSV : BitVec 16), cmd = OPC ++ ARG ++ RSV :=
    ⟨_, _, _, cmd_split cmd⟩
  have hInit (hm : ARG &&& 0xFE = 0) : 0#7 ++ ARG.extractLsb' 0 1 = ARG := zeros_append_lowField ARG rfl hm
  have hField (hm : ARG &&& 0xF8 = 0) : 0#5 ++ ARG.extractLsb' 0 3 = ARG := zeros_append_lowField ARG rfl hm
  have hReg (hm : ARG &&& 0xFC = 0) : 0#6 ++ ARG.extractLsb' 0 2 = ARG := zeros_append_lowField ARG rfl hm
  rw [decode_fields] at h
  show i.opc ++ i.arg ++ 0#16 = OPC ++ ARG ++ RSV
  rw [fields_inj]
  split_ifs at h with hRSV h1 h2 h3 h4 h5 <;> obtain rfl := Option.some.inj h
  · exact ⟨h1.1.symm, by rw [Instr.arg, Variant.code_ofCode, hInit h1.2], hRSV.symm⟩
  · exact ⟨h2.1.symm, hField h2.2, hRSV.symm⟩
  · exact ⟨h3.1.symm, h3.2.symm, hRSV.symm⟩
  · exact ⟨h4.1.symm, hField h4.2, hRSV.symm⟩
  · exact ⟨h5.1.symm, by rw [Instr.arg, Reg.code_ofCode, hReg h5.2], hRSV.symm⟩

/-! ### Precise faults -/

/-- Settles O25, by the cases of a step: waiting and reset answer nothing, and a command that completes answers
ok = 1. -/
theorem faultsArePrecise : Obligations.FaultsArePrecise := by
  intro s t data hstep hresponses
  rcases step_cases hstep with
    ⟨-, rfl⟩ | ⟨_, rest, -, rfl⟩ | ⟨r, rest, hp, -, rfl⟩ | ⟨r, rest, i, hp, hd, he⟩
  · simp at hresponses
  · simp at hresponses
  · exact ⟨r, rest, .illegalCmd, hp, by decide, rfl⟩
  · obtain ⟨code, hcode, rfl⟩ | hc := exec_cases he
    · exact ⟨r, rest, code, hp, hcode, by rw [cmd_of_decode hd]⟩
    · exact absurd hresponses (hc.responses_ne data)

/-! ### The order of the causes -/

/-- What a command that completes leaves in ERRCODE: INIT clears it, and no other command writes it. -/
def errcodeLeft (s : State) : Instr → ErrCode
  | .init _ => .none
  | _ => s.errcode

theorem Completed.errcode {i : Instr} {s t : State} (h : Completed i s t) : t.errcode = errcodeLeft s i := by
  cases i with
  | init V =>
    obtain rfl := h
    rfl
  | absorb NM1 din =>
    obtain ⟨-, -, -, rfl⟩ := h
    obtain ⟨-, -, -, herrcode, -⟩ := absorbBytes_frame s (messageBytes NM1 din)
    exact herrcode
  | finalize =>
    obtain ⟨-, -, rfl⟩ := h
    rw [foldBlocks_eq]
    rfl
  | readDigest K =>
    obtain ⟨-, -, rfl⟩ := h
    rfl
  | readReg REG =>
    obtain rfl := h
    rfl

/-- With no fault standing, ERRCODE after a command is its cause, or what the command leaves there. -/
theorem exec_errcode {i : Instr} {s t : State} (hp : s.phase ≠ .error) (he : exec i s = .next t) :
    t.errcode = (faultCause s i).getD (errcodeLeft s i) := by
  cases hc : faultCause s i with
  | none => exact (completed_of_faultCause_eq_none hc he).errcode
  | some code =>
    obtain rfl := Host.Outcome.next.inj ((exec_of_faultCause_eq_some hc).symm.trans he)
    rw [raiseFault_errcode, if_neg hp]
    rfl

/-- Settles O26: a word that does not decode is ILLEGAL_CMD, and a decoded command leaves its cause, if it has
one. -/
theorem faultPriority : Obligations.FaultPriority := by
  intro s t r rest hpending hp hstep
  cases hd : decode r with
  | none =>
    rw [step_of_decode_none hpending hd] at hstep
    obtain rfl := Host.Outcome.next.inj hstep
    rw [raiseFault_errcode]
    exact if_neg hp
  | some i =>
    rw [step_of_decode_some hpending hd] at hstep
    have herrcode : t.errcode = (faultCause s i).getD (errcodeLeft s i) :=
      exec_errcode (s := s.withPending rest) hp hstep
    rw [herrcode]
    cases i with
    | init V => rfl
    | absorb NM1 din =>
      simp only [faultCause]
      split_ifs <;> rfl
    | finalize =>
      simp only [faultCause]
      split_ifs <;> rfl
    | readDigest K =>
      simp only [faultCause]
      split_ifs <;> rfl
    | readReg REG => rfl

/-! ### ERROR -/

/-- What a command can do in ERROR (60_exceptions.md R262, R264). -/
theorem exec_cases_of_error {i : Instr} {s t : State} (hp : s.phase = .error) (he : exec i s = .next t) :
    (∃ V, i = .init V) ∨ (∃ REG, i = .readReg REG ∧ t = s.respond true (regValue s REG)) ∨
      t = s.respond false 0 := by
  obtain ⟨code, -, rfl⟩ | hc := exec_cases he
  · exact .inr (.inr (raiseFault_of_error hp code i.cmd))
  · cases i with
    | init V => exact .inl ⟨V, rfl⟩
    | absorb NM1 din => cases hp.symm.trans hc.1
    | finalize => cases hp.symm.trans hc.1
    | readDigest K => cases hp.symm.trans hc.1
    | readReg REG => exact .inr (.inl ⟨REG, rfl, hc⟩)

/-- Settles O27, by the cases of a step: in ERROR a step that neither resets nor runs INIT gives at most a
response. -/
theorem errorIsSticky : Obligations.ErrorIsSticky := by
  intro s t hp hstep
  rcases step_cases hstep with
    ⟨hnil, rfl⟩ | ⟨c, rest, hpending, -⟩ | ⟨r, rest, hpending, -, rfl⟩ | ⟨r, rest, i, hpending, hd, he⟩
  · refine .inr (.inr ⟨rfl, fun r rest hpending => ?_⟩)
    cases hnil.symm.trans hpending
  · exact .inl ⟨c, rest, hpending⟩
  · rw [raiseFault_of_error (s := s.withPending rest) hp]
    exact .inr (.inr ⟨rfl, fun _ _ _ _ => rfl⟩)
  · obtain ⟨V, rfl⟩ | ⟨REG, rfl, rfl⟩ | rfl := exec_cases_of_error (s := s.withPending rest) hp he
    · exact .inr (.inl ⟨r, rest, V, hpending, hd⟩)
    · refine .inr (.inr ⟨rfl, fun r' rest' hpending' hnot => ?_⟩)
      cases hpending.symm.trans hpending'
      exact absurd hd (hnot REG)
    · exact .inr (.inr ⟨rfl, fun _ _ _ _ => rfl⟩)

end Sys2Proof.Machine
end

section
/-! PROOFS of the family of 70_reset_and_hazards.md: the reset event (R290). -/
namespace Sys2Proof.Machine

/-- The step on a reset, exactly: the state after reset, with the rest of the host's list and the responses already
returned. The command in progress does not occur in it (70_reset_and_hazards.md R290). -/
theorem step_of_reset {s : State} {inProgress : Option Request} {rest : List HostEvent}
    (hpending : s.pending = .reset inProgress :: rest) :
    step s = .next { State.reset with pending := rest, responses := s.responses } := by
  rw [step, hpending]
  rfl

/-- Settles O10, by the exact step on a reset: each element has its value in the state after reset. -/
theorem resetEventResets : Obligations.ResetEventResets := by
  intro s inProgress rest hpending
  exact ⟨{ State.reset with pending := rest, responses := s.responses }, step_of_reset hpending,
    rfl, rfl, rfl, rfl, rfl, rfl, rfl, rfl, rfl⟩

end Sys2Proof.Machine
end

section
/-! PROOFS about encoding: that the decoder and the encoder agree (30_encoding.md R73, R74), what an assembler makes of
a line (R83), and the expansion of ABSORB_BYTES (R84). -/

namespace Sys2Proof

/-- The data operand of a decoded ABSORB is the one issued (30_encoding.md R82). -/
theorem din_of_decode_absorb {r : Request} {NM1 : BitVec 3} {din : Din} (h : decode r = some (.absorb NM1 din)) :
    din = r.din := by
  have hdin : Instr.absorb NM1 r.din = .absorb NM1 din := withDin_of_decode (cmd := r.cmd) h
  injection hdin with _ hdin
  exact hdin.symm

/-- Settles O1: `decode_encode` in one direction, the fields of a decoded word in the other. -/
theorem decodeEncodeAgree : Obligations.DecodeEncodeAgree := by
  refine ⟨decode_encode, fun r i h => ⟨Machine.cmd_of_decode h, ?_⟩⟩
  rintro NM1 din rfl
  exact din_of_decode_absorb h

/-- Settles O2, by running the decoder on the words. -/
theorem wordsOfTheSpecDecode : Obligations.WordsOfTheSpecDecode := by
  unfold Obligations.WordsOfTheSpecDecode
  decide

namespace Machine

/-! ### The message bytes of a data operand -/

/-- The message bytes are the first of the 8 big-endian bytes of `din` (20_memory.md R52). -/
theorem messageBytes_eq_take (NM1 : BitVec 3) (din : Din) :
    messageBytes NM1 din = (bytesBe 8 din.toNat).take (byteCount NM1) := by
  refine List.ext_getElem? fun i => ?_
  have hN : byteCount NM1 ≤ 8 := NM1.isLt
  by_cases hi : i < byteCount NM1
  · have hshift : 56 - 8 * i = 8 * (8 - 1 - i) := by omega
    rw [List.getElem?_take_of_lt hi, bytesBe_getElem? _ _ _ (hi.trans_le hN), messageBytes, List.getElem?_map,
      List.getElem?_range hi, Option.map_some, dinByte, hshift]
    rfl
  · rw [List.getElem?_eq_none, List.getElem?_eq_none]
    · simp; omega
    · rw [messageBytes_length]; omega

/-- A `din` made of 8 bytes has those bytes. -/
theorem bytesBe_din {bs : List Byte} (h : bs.length = 8) : bytesBe 8 (BitVec.ofNat 64 (wordBe bs)).toNat = bs := by
  have hlt : wordBe bs < 2 ^ 64 := by simpa [h] using wordBe_lt bs
  have hbytes := bytesBe_wordBe bs
  rwa [BitVec.toNat_ofNat, Nat.mod_eq_of_lt hlt, ← h]

/-- An assembled `din` carries the bytes written on the line (30_encoding.md R83). -/
theorem messageBytes_assembled {NM1 : BitVec 3} {bytes : List Byte} (h : byteCount NM1 = bytes.length) :
    messageBytes NM1 (BitVec.ofNat 64 (wordBe (bytes ++ zeros (8 - bytes.length)))) = bytes := by
  have hN : byteCount NM1 ≤ 8 := NM1.isLt
  have hlen : (bytes ++ zeros (8 - bytes.length)).length = 8 := by simp; omega
  rw [messageBytes_eq_take, bytesBe_din hlen, h, List.take_left]

end Machine

open Machine

/-! ### Assembled lines -/

/-- An assembler refuses exactly the ill-formed lines (30_encoding.md R83; READ_REG by log 18). -/
theorem assemble_eq_none_iff (l : Listing) : assemble l = none ↔ l.wellFormed = false := by
  simp [assemble]

theorem assemble_eq_some_iff (l : Listing) (r : Request) :
    assemble l = some r ↔ l.wellFormed = true ∧ l.request = r := by
  simp [assemble]

/-- A field shifted into ARG under an opcode, as an assembler writes it, is the command word of the instruction. -/
theorem cmd_absorb_shifted (NM1 : BitVec 3) (din : Din) :
    0x02000000#32 ||| (BitVec.ofNat 32 NM1.toNat <<< 16) = (Instr.absorb NM1 din).cmd := by
  rw [cmd_absorb]
  revert NM1
  decide

theorem cmd_readDigest_shifted (K : BitVec 3) :
    0x04000000#32 ||| (BitVec.ofNat 32 K.toNat <<< 16) = (Instr.readDigest K).cmd := by
  revert K
  decide

theorem cmd_readReg_shifted (REG : Reg) :
    0x05000000#32 ||| (BitVec.ofNat 32 REG.code.toNat <<< 16) = (Instr.readReg REG).cmd := by
  cases REG <;> rfl

/-- An accepted ABSORB line assembles to an encoded ABSORB of its bytes. -/
theorem request_absorb {n : Nat} {bytes : List Byte} (h : (Listing.absorb n bytes).wellFormed = true) :
    ∃ NM1 din, (Listing.absorb n bytes).request = encode (.absorb NM1 din) ∧ byteCount NM1 = n ∧
      messageBytes NM1 din = bytes := by
  simp only [Listing.wellFormed, Bool.and_eq_true, decide_eq_true_eq] at h
  obtain ⟨⟨hpos, hle⟩, rfl⟩ := h
  have hNM1 : (BitVec.ofNat 3 (bytes.length - 1)).toNat = bytes.length - 1 := by
    rw [BitVec.toNat_ofNat, Nat.mod_eq_of_lt (by omega)]
  have hcount : byteCount (BitVec.ofNat 3 (bytes.length - 1)) = bytes.length := by
    rw [byteCount, hNM1]; omega
  refine ⟨_, _, ?_, hcount, messageBytes_assembled hcount⟩
  rw [encode, ← cmd_absorb_shifted, hNM1]
  rfl

theorem request_readDigest {k : Nat} (h : k ≤ 7) :
    (Listing.readDigest k).request = encode (.readDigest (BitVec.ofNat 3 k)) := by
  have hk : (BitVec.ofNat 3 k).toNat = k := by
    rw [BitVec.toNat_ofNat, Nat.mod_eq_of_lt (by omega)]
  rw [encode, ← cmd_readDigest_shifted, hk]
  rfl

theorem request_readReg {n : Nat} (h : n ≤ 3) :
    ∃ REG, (Listing.readReg n).request = encode (.readReg REG) ∧ REG.code.toNat = n := by
  have hcode : (Reg.ofCode (BitVec.ofNat 2 n)).code.toNat = n := by
    rw [Reg.code_ofCode, BitVec.toNat_ofNat, Nat.mod_eq_of_lt (by omega)]
  refine ⟨_, ?_, hcode⟩
  rw [encode, ← cmd_readReg_shifted, hcode]
  rfl

/-- Settles O5: the refused lines are the ill-formed ones, and the request of an accepted line is an encoded command,
which decodes to that command (O1). -/
theorem assembledLinesDecode : Obligations.AssembledLinesDecode := by
  intro l
  rw [assemble_eq_none_iff]
  simp only [assemble_eq_some_iff]
  cases l with
  | init v =>
    refine ⟨by simp [Listing.wellFormed], ?_⟩
    rintro r ⟨-, rfl⟩
    cases v <;> rfl
  | absorb n bytes =>
    refine ⟨by simp only [Listing.wellFormed, Bool.and_eq_false_iff, decide_eq_false_iff_not]; omega, ?_⟩
    rintro r ⟨hwf, rfl⟩
    obtain ⟨NM1, din, hrequest, hcount, hbytes⟩ := request_absorb hwf
    exact ⟨NM1, din, by rw [hrequest, decode_encode], hcount, hbytes⟩
  | finalize =>
    refine ⟨by simp [Listing.wellFormed], ?_⟩
    rintro r ⟨-, rfl⟩
    rfl
  | readDigest k =>
    refine ⟨by simp [Listing.wellFormed], ?_⟩
    rintro r ⟨hwf, rfl⟩
    have hk : k ≤ 7 := of_decide_eq_true hwf
    exact ⟨BitVec.ofNat 3 k, by rw [request_readDigest hk, decode_encode],
      by rw [BitVec.toNat_ofNat, Nat.mod_eq_of_lt (by omega)]⟩
  | readReg n =>
    refine ⟨by simp [Listing.wellFormed], ?_⟩
    rintro r ⟨hwf, rfl⟩
    obtain ⟨REG, hrequest, hcode⟩ := request_readReg (of_decide_eq_true hwf)
    exact ⟨REG, by rw [hrequest, decode_encode], hcode⟩
  | word cmd din =>
    refine ⟨by simp [Listing.wellFormed], ?_⟩
    rintro r ⟨-, rfl⟩
    rfl

/-! ### ABSORB_BYTES -/

/-- Line `k` of the expansion (30_encoding.md R84). -/
theorem absorbBytesLines_getElem? (bs : List Byte) {k : Nat} (h : 8 * k < bs.length) :
    (absorbBytesLines bs)[k]? = some (.absorb (min 8 (bs.length - 8 * k)) (slice bs (8 * k) 8)) := by
  have hk : k < (bs.length + 7) / 8 := by omega
  simp [absorbBytesLines, hk]

theorem absorbBytesLines_length (bs : List Byte) : (absorbBytesLines bs).length = (bs.length + 7) / 8 := by
  simp [absorbBytesLines]

/-- The last group may be shorter. -/
theorem slice_length_eq_min (s : List Byte) (lo n : Nat) : (slice s lo n).length = min n (s.length - lo) := by
  simp [slice]

/-- The lines of the expansion, in order, carry the bytes given. -/
theorem absorbBytesLines_flatMap_bytes (bs : List Byte) : (absorbBytesLines bs).flatMap Listing.bytes = bs := by
  calc (absorbBytesLines bs).flatMap Listing.bytes
      = (List.range ((bs.length + 7) / 8)).flatMap (fun k => slice bs (8 * k) 8) := List.flatMap_map ..
    _ = bs.take (8 * ((bs.length + 7) / 8)) := flatMap_slice _ _ _
    _ = bs := List.take_of_length_le (by omega)

/-- Every line of the expansion is an accepted ABSORB. -/
theorem wellFormed_of_mem_absorbBytesLines {bs : List Byte} {l : Listing} (h : l ∈ absorbBytesLines bs) :
    l.wellFormed = true ∧ ∃ n bytes, l = .absorb n bytes := by
  obtain ⟨k, hk, rfl⟩ := List.mem_map.mp h
  have hk : 8 * k < bs.length := by rw [List.mem_range] at hk; omega
  refine ⟨?_, _, _, rfl⟩
  simp only [Listing.wellFormed, slice_length_eq_min, Bool.and_eq_true, decide_eq_true_eq, and_true]
  omega

/-- Settles O6: the lines are the slices of 8 bytes, in order. -/
theorem absorbBytesExpansion : Obligations.AbsorbBytesExpansion := by
  intro bs
  refine ⟨fun k hk => ?_, fun k hk => ?_, fun l => wellFormed_of_mem_absorbBytesLines,
    absorbBytesLines_flatMap_bytes bs, ?_⟩
  · exact ⟨_, absorbBytesLines_getElem? bs hk, slice_length_eq_min .., fun i hi =>
      slice_getElem? _ _ _ _ (hi.trans_le (Nat.min_le_left ..))⟩
  · exact List.getElem?_eq_none (by rw [absorbBytesLines_length]; omega)
  · rintro rfl
    rfl

end Sys2Proof
end

section
/-! PROOFS about the step: the decoded instruction (00_scope.md R15), waiting (60_exceptions.md R284) and the values
after reset (10_state.md R39). -/

namespace Sys2Proof.Machine

/-- A step with nothing from the host holds the state (60_exceptions.md R284). -/
theorem step_of_pending_nil {s : State} (hp : s.pending = []) : step s = .next s := by
  rw [step, hp]

/-- Settles O7: `withFetchWord` places a request in front of the host's list, and the step takes it off. -/
theorem stepRunsDecodedInstruction : Obligations.StepRunsDecodedInstruction :=
  ⟨fun _ _ _ _ hp hd => step_of_decode_some hp hd,
    fun s nbits w _ hd => step_of_decode_some (s := s.withFetchWord nbits w) rfl hd⟩

/-- Settles O8, by the step with an empty list. -/
theorem waitingHoldsState : Obligations.WaitingHoldsState := fun _ hp => step_of_pending_nil hp

/-- Settles O9: each value is the field of `State.reset`. -/
theorem resetValues : Obligations.ResetValues := ⟨rfl, rfl, rfl, rfl, rfl, rfl, rfl⟩

end Sys2Proof.Machine
end

section
/-! PROOFS about the counts and numbers: the length registers (10_state.md R34), bytes and words (00_scope.md R14), the
block counts (42_padding.md R138) and the length limit (41_segmenter.md R104). -/

namespace Sys2Proof.Machine

/-! ### The length registers -/

theorem lenLo_toNat (s : State) : (lenLo s).toNat = s.cnt.toNat % 2 ^ 64 := by
  rw [lenLo, BitVec.extractLsb'_toNat, Nat.shiftRight_zero]

/-- CNT has 125 bits, so LEN_HI holds all that are above LEN_LO. -/
theorem lenHi_toNat (s : State) : (lenHi s).toNat = s.cnt.toNat / 2 ^ 64 := by
  have hcnt : s.cnt.toNat / 2 ^ 64 < 2 ^ 61 := Nat.div_lt_of_lt_mul s.cnt.isLt
  rw [lenHi, BitVec.toNat_setWidth, BitVec.extractLsb'_toNat, Nat.shiftRight_eq_div_pow, Nat.mod_eq_of_lt hcnt,
    Nat.mod_eq_of_lt (hcnt.trans (by decide))]

theorem lenHi_reserved_63_61 (s : State) : (lenHi s).extractLsb' 61 3 = 0 := by
  rw [lenHi, BitVec.setWidth_eq_append (by decide)]
  exact BitVec.extractLsb'_append_eq_left

/-- Settles O29: LEN_HI is the quotient of CNT by 2^64 and LEN_LO the remainder. -/
theorem lengthRegistersHoldCount : Obligations.LengthRegistersHoldCount := by
  refine fun s => ⟨?_, lenHi_reserved_63_61 s⟩
  rw [lenHi_toNat, lenLo_toNat]
  exact Nat.div_add_mod' _ _

/-! ### Bytes and words -/

/-- Settles O30: `word_be` of the bytes is the number modulo `2^(8n)`. -/
theorem bytesAndWordsAgree : Obligations.BytesAndWordsAgree :=
  ⟨fun n x => ⟨bytesBe_length n x, fun hx => (wordBe_bytesBe n x).trans (Nat.mod_eq_of_lt hx)⟩, bytesBe_wordBe⟩

/-! ### Block counts -/

theorem blocksOf_count (v : Variant) (M : List Byte) : (blocksOf v M).length = M.length / v.B := by
  simp [blocksOf]

/-- The tail is one block if there is room for the trailer, and otherwise two. -/
theorem padTail_count (v : Variant) (rem : List Byte) (L : Nat) :
    (padTail v rem L).length = if rem.length ≤ v.B - v.LF - 1 then 1 else 2 := by
  split_ifs with h
  · exact (padTail_length_eq_one_iff v rem L).mpr h
  · exact (padTail_length_eq_two_iff v rem L).mpr (by omega)

/-- Blocks of `n` bytes each have `n` bytes for each block. -/
theorem flatten_length_of_blocks {blks : List (List Byte)} {n : Nat} (h : ∀ blk ∈ blks, blk.length = n) :
    blks.flatten.length = blks.length * n := by
  rw [List.length_flatten, List.map_congr_left h, List.map_const', List.sum_replicate, smul_eq_mul]

/-- The padded message has the data blocks and then the blocks of the tail (42_padding.md R139). -/
theorem paddedMessage_length (v : Variant) (M : List Byte) :
    (paddedMessage v M).length =
      (M.length / v.B + (padTail v (M.drop (M.length / v.B * v.B)) M.length).length) * v.B := by
  obtain ⟨hblocks, -⟩ := paddingEquivalence v M
  rw [← messageBlocks_flatten, flatten_length_of_blocks hblocks, List.length_append, blocksOf_count]

/-- Settles O42: the number of tail blocks depends on the length of the remainder alone. -/
theorem blockCounts : Obligations.BlockCounts := by
  intro v M rem hrem
  have htail : (padTail v (M.drop (M.length / v.B * v.B)) M.length).length = (padTail v rem M.length).length := by
    rw [padTail_count, padTail_count, drop_rem_length, hrem]
  refine ⟨blocksOf_count v M, ?_, ?_⟩
  · rw [padTail_count, hrem]
  · rw [paddedMessage_length, htail]

/-! ### The length limit -/

/-- Settles O44: `8·L` is below `2^(8·LF)` exactly if `L` is below `2^(8·LF − 3)`. -/
theorem lengthLimit : Obligations.LengthLimit := by
  refine ⟨rfl, rfl, fun v L => ?_⟩
  have hpow : 2 ^ (8 * v.LF) = 8 * 2 ^ (8 * v.LF - 3) := by cases v <;> rfl
  rw [Variant.MAXB, hpow]
  omega

end Sys2Proof.Machine
end

section
/-! PROOFS about the commands: what each does when it completes, where it faults and where the model stops
(41_segmenter.md R101 to R104, 42_padding.md R140, 45_driver.md R222, R226, R230), what each writes (10_state.md R20),
and that reads repeat (20_memory.md R60). -/

namespace Sys2Proof.Machine

/-! ### Commands that complete -/

theorem exec_absorb_of_absorbing {s : State} {NM1 : BitVec 3} (hphase : s.phase = .absorbing)
    (hlen : s.cnt.toNat + byteCount NM1 ≤ s.variant.MAXB) (hfill : s.fill.toNat < s.variant.B) (din : Din) :
    exec (.absorb NM1 din) s = .next ((s.absorbBytes (messageBytes NM1 din)).respond true 0) := by
  show execAbsorb NM1 din s = _
  rw [execAbsorb, if_neg (not_not.mpr hphase), if_neg hlen.not_gt, if_pos hfill]

theorem exec_finalize_of_absorbing {s : State} (hphase : s.phase = .absorbing)
    (hpad : padPrecondition s.variant s.fill.toNat s.cnt.toNat = true) :
    exec .finalize s = .next (((s.foldBlocks s.tail).finish (BitVec.ofNat 2 s.tail.length)).respond true 0) := by
  show execFinalize s = _
  rw [execFinalize, if_neg (not_not.mpr hphase), if_pos hpad]

theorem exec_readDigest_of_lt_DG {s : State} {K : BitVec 3} (hphase : s.phase = .done)
    (hrange : K.toNat < s.variant.DG) :
    exec (.readDigest K) s = .next (s.respond true (digestGroup s.variant s.H K.toNat)) := by
  show execReadDigest K s = _
  rw [execReadDigest, if_neg (not_not.mpr hphase), if_neg hrange.not_ge]

/-- `Completed` says what the command does: the converse of `exec_cases` for the commands that take no fault. -/
theorem Completed.exec_eq {i : Instr} {s t : State} (h : Completed i s t) : exec i s = .next t := by
  cases i with
  | init V =>
    obtain rfl := h
    rfl
  | absorb NM1 din =>
    obtain ⟨hphase, hlen, hfill, rfl⟩ := h
    exact exec_absorb_of_absorbing hphase hlen hfill din
  | finalize =>
    obtain ⟨hphase, hpad, rfl⟩ := h
    exact exec_finalize_of_absorbing hphase hpad
  | readDigest K =>
    obtain ⟨hphase, hrange, rfl⟩ := h
    exact exec_readDigest_of_lt_DG hphase hrange
  | readReg REG =>
    obtain rfl := h
    rfl

/-- Settles O11: the writes of INIT and its response. -/
theorem initStartsComputation : Obligations.InitStartsComputation := fun _ _ => rfl

/-! ### Commands that fault -/

/-- Settles O13: SEQUENCE, or LENGTH_OVERFLOW, is the cause. -/
theorem absorbFaults : Obligations.AbsorbFaults := by
  intro s NM1 din
  rw [← cmd_absorb NM1 din]
  refine ⟨fun hphase => exec_of_faultCause_eq_some ?_, fun hphase hlen => exec_of_faultCause_eq_some ?_⟩
  · simp [faultCause, hphase]
  · simp [faultCause, hphase, byteCount, hlen]

/-- Settles O17: SEQUENCE, or RANGE, is the cause. -/
theorem readDigestFaults : Obligations.ReadDigestFaults := by
  intro s K
  rw [← cmd_readDigest K]
  refine ⟨fun hphase => exec_of_faultCause_eq_some ?_, fun hphase hvariant hK => exec_of_faultCause_eq_some ?_⟩
  · simp [faultCause, hphase]
  · have hDG : s.variant.DG ≤ K.toNat := by rwa [hvariant]
    simp [faultCause, hphase, hDG]

/-- Settles O19: SEQUENCE is the cause. -/
theorem finalizeFaults : Obligations.FinalizeFaults := fun s hphase =>
  exec_of_faultCause_eq_some (i := .finalize) (by simp [faultCause, hphase])

/-! ### Commands that stop -/

theorem padPrecondition_eq_true_iff (v : Variant) (r L : Nat) :
    padPrecondition v r L = true ↔ r < v.B ∧ r = L % v.B ∧ L ≤ v.MAXB := by
  simp [padPrecondition, and_assoc]

/-- Settles O15: each premise fails the last check of its command (log 8). -/
theorem preconditionStops : Obligations.PreconditionStops := by
  refine fun s hphase => ⟨fun NM1 din hlen hfill => ?_, fun hnot => ?_⟩
  · show execAbsorb NM1 din s = _
    rw [execAbsorb, if_neg (not_not.mpr hphase), if_neg hlen.not_gt, if_neg hfill.not_gt]
  · have hpad : ¬ padPrecondition s.variant s.fill.toNat s.cnt.toNat = true := by
      rw [padPrecondition_eq_true_iff]; omega
    show execFinalize s = _
    rw [execFinalize, if_neg (not_not.mpr hphase), if_neg hpad]

/-! ### ABSORB -/

/-- Bytes `bs` that complete the block are stored and folded, and the bytes `cs` after them start the next block
(41_segmenter.md R102, R103). -/
theorem absorbBytes_wraps (s : State) (bs cs : List Byte) (hf : s.fill.toNat < s.variant.B)
    (hbs : s.fill.toNat + bs.length = s.variant.B) (hcs : cs.length ≤ s.fill.toNat) :
    ∃ buf : Vector Byte 128,
      s.absorbBytes (bs ++ cs) =
        { s with
          buf := buf, cnt := s.cnt + BitVec.ofNat 125 (bs ++ cs).length, fill := BitVec.ofNat 7 cs.length
          H := compress s.variant s.H (s.bufPrefix s.fill.toNat ++ bs) } ∧
      (∀ i, i < bs.length → buf[s.fill.toNat + i]? = bs[i]?) ∧
      (∀ i, i < cs.length → buf[i]? = cs[i]?) ∧
      (∀ j, cs.length ≤ j → j < s.fill.toNat ∨ s.variant.B ≤ j → buf[j]? = s.buf[j]?) := by
  obtain ⟨buf₁, h₁, hnew₁, hold₁⟩ := absorbBytes_fills s bs hf hbs
  have hempty : (s.absorbBytes bs).fill.toNat = 0 := by rw [h₁]; rfl
  have hvariant : (s.absorbBytes bs).variant = s.variant := by rw [h₁]
  obtain ⟨buf₂, h₂, hnew₂, hold₂⟩ := absorbBytes_within (s.absorbBytes bs) cs (by rw [hempty, hvariant]; omega)
  simp only [hempty, Nat.zero_add] at h₂ hnew₂ hold₂
  have hbuf : (s.absorbBytes bs).buf = buf₁ := by rw [h₁]
  rw [hbuf] at hold₂
  refine ⟨buf₂, ?_, fun i hi => ?_, hnew₂, fun j hcs hj => ?_⟩
  · rw [absorbBytes_append, h₂, h₁, List.length_append, BitVec.ofNat_add, ← BitVec.add_assoc]
  · rw [hold₂ _ (by omega), hnew₁ i hi]
  · rw [hold₂ j (.inr hcs), hold₁ j (by omega)]

/-- What fewer than B bytes do: byte `i` is stored at index FILL + i modulo B, and a completed block is folded. -/
theorem absorbBytes_spec (s : State) (bs : List Byte) (hf : s.fill.toNat < s.variant.B)
    (hlen : bs.length < s.variant.B) :
    ∃ buf : Vector Byte 128,
      s.absorbBytes bs =
        { s with
          buf := buf
          cnt := s.cnt + BitVec.ofNat 125 bs.length
          fill := BitVec.ofNat 7 ((s.fill.toNat + bs.length) % s.variant.B)
          H :=
            if s.fill.toNat + bs.length < s.variant.B then s.H
            else compress s.variant s.H (s.bufPrefix s.fill.toNat ++ bs.take (s.variant.B - s.fill.toNat)) } ∧
      (∀ i, i < bs.length → buf[(s.fill.toNat + i) % s.variant.B]? = bs[i]?) ∧
      (∀ j, (∀ i, i < bs.length → j ≠ (s.fill.toNat + i) % s.variant.B) → buf[j]? = s.buf[j]?) := by
  have hlow (i : Nat) (hi : s.fill.toNat + i < s.variant.B) :
      (s.fill.toNat + i) % s.variant.B = s.fill.toNat + i := Nat.mod_eq_of_lt hi
  by_cases hwithin : s.fill.toNat + bs.length < s.variant.B
  · obtain ⟨buf, h, hnew, hold⟩ := absorbBytes_within s bs hwithin
    refine ⟨buf, ?_, fun i hi => ?_, fun j hj => hold j ?_⟩
    · rw [h, hlow _ hwithin, if_pos hwithin]
    · rw [hlow i (by omega), hnew i hi]
    · by_contra hin
      exact hj (j - s.fill.toNat) (by omega) (by rw [hlow _ (by omega)]; omega)
  · obtain ⟨ds, cs, rfl, hds⟩ : ∃ ds cs, bs = ds ++ cs ∧ s.fill.toNat + ds.length = s.variant.B :=
      ⟨_, _, (List.take_append_drop (s.variant.B - s.fill.toNat) bs).symm, by simp; omega⟩
    rw [List.length_append] at hlen hwithin
    have hhigh (i : Nat) (hi : i < s.variant.B) : (s.fill.toNat + (ds.length + i)) % s.variant.B = i := by
      rw [← Nat.add_assoc, hds, Nat.add_mod_left, Nat.mod_eq_of_lt hi]
    obtain ⟨buf, h, hnew, hnext, hold⟩ := absorbBytes_wraps s ds cs hf hds (by omega)
    refine ⟨buf, ?_, fun i hi => ?_, fun j hj => ?_⟩
    · have hblock : s.variant.B - s.fill.toNat = ds.length := by omega
      rw [h, hblock, List.take_left, List.length_append, if_neg hwithin, hhigh _ (by omega)]
    · obtain hi' | ⟨k, rfl⟩ : i < ds.length ∨ ∃ k, i = ds.length + k :=
        (Nat.lt_or_ge i ds.length).imp_right Nat.exists_eq_add_of_le
      · rw [hlow i (by omega), hnew i hi', List.getElem?_append_left hi']
      · rw [List.length_append] at hi
        rw [hhigh k (by omega), hnext k (by omega), List.getElem?_append_right (Nat.le_add_right ..),
          Nat.add_sub_cancel_left]
    · rw [List.length_append] at hj
      refine hold j ?_ ?_
      · by_contra hin
        exact hj (ds.length + j) (by omega) (hhigh j (by omega)).symm
      · by_contra hin
        exact hj (j - s.fill.toNat) (by omega) (by rw [hlow _ (by omega)]; omega)

theorem eight_lt_B (v : Variant) : 8 < v.B := by cases v <;> decide

theorem messageBytes_getElem? {NM1 : BitVec 3} {i : Nat} (h : i < byteCount NM1) (din : Din) :
    (messageBytes NM1 din)[i]? = some (dinByte din i) := by
  simp [messageBytes, h]

/-- Settles O12: an ABSORB has at most 8 bytes, fewer than a block. -/
theorem absorbAppendsBytes : Obligations.AbsorbAppendsBytes := by
  intro s NM1 din hphase hlen hfill
  have hB := eight_lt_B s.variant
  have hN : byteCount NM1 ≤ 8 := NM1.isLt
  obtain ⟨buf, h, hnew, hold⟩ := absorbBytes_spec s (messageBytes NM1 din) hfill (by rw [messageBytes_length]; omega)
  rw [messageBytes_length] at h hnew hold
  refine ⟨buf, ?_, fun i hi => ?_, hold⟩
  · rw [exec_absorb_of_absorbing hphase hlen hfill, h]
    rfl
  · rw [hnew i hi, messageBytes_getElem? hi]
    rfl

/-! ### FINALIZE -/

/-- Settles O14: the tail of an open computation, by the room condition (42_padding.md R133, R134). -/
theorem finalizeFoldsTail : Obligations.FinalizeFoldsTail := by
  intro s hphase hfill hrem hcnt
  have hpad : padPrecondition s.variant s.fill.toNat s.cnt.toNat = true :=
    (padPrecondition_eq_true_iff _ _ _).mpr ⟨hfill, hrem, hcnt⟩
  have hLF := (LF_lt_B s.variant).1
  have hlen : (s.bufPrefix s.fill.toNat).length = s.fill.toNat := bufPrefix_length _ _ s.fill.isLt.le
  rw [exec_finalize_of_absorbing hphase hpad, foldBlocks_eq]
  by_cases hroom : s.fill.toNat + 1 + s.variant.LF ≤ s.variant.B
  · rw [if_pos hroom, State.tail, padTail_of_room _ (by omega), hlen]
    rfl
  · rw [if_neg hroom, State.tail, padTail_of_noRoom _ (by omega), hlen]
    rfl

/-! ### The reads -/

/-- Whole words from index `k` on begin where the words before it end. -/
theorem drop_flatMap {α : Type} (f : α → List Byte) {n : Nat} (hf : ∀ x, (f x).length = n) (l : List α) (k : Nat) :
    (l.flatMap f).drop (n * k) = (l.drop k).flatMap f := by
  induction k generalizing l with
  | zero => rfl
  | succ k ih =>
    cases l with
    | nil => simp
    | cons a l =>
      rw [List.flatMap_cons, Nat.mul_succ, Nat.add_comm, ← List.drop_drop, List.drop_left' (hf a), ih]
      rfl

/-- The digest from word `k` on, word by word (45_driver.md R224). -/
theorem digest_drop {v : Variant} (H : Words v) {k : Nat} (hk : k < 8) :
    (digest v H).drop (v.WB * k) = bytesBe v.WB H[k].toNat ++ (digest v H).drop (v.WB * (k + 1)) := by
  have hdrop : H.toList.drop k = H[k] :: H.toList.drop (k + 1) := by
    simp [List.drop_eq_getElem_cons, hk]
  rw [digest, drop_flatMap _ (fun _ => bytesBe_length _ _), drop_flatMap _ (fun _ => bytesBe_length _ _), hdrop,
    List.flatMap_cons]

/-- A word's bytes spell the word (00_scope.md R14). -/
theorem wordBe_bytesBe_toNat {n w : Nat} (hw : w = 8 * n) (x : BitVec w) : wordBe (bytesBe n x.toNat) = x.toNat := by
  rw [wordBe_bytesBe, Nat.mod_eq_of_lt (hw ▸ x.isLt)]

/-- Under SHA-256 a digest group is two words (45_driver.md R226). -/
theorem digestGroup_sha256 (H : Words .sha256) {k : Nat} (hk : k < 4) :
    digestGroup .sha256 H k = H[2 * k] ++ H[2 * k + 1] := by
  have hslice : slice (digest .sha256 H) (8 * k) 8 = bytesBe 4 H[2 * k].toNat ++ bytesBe 4 H[2 * k + 1].toNat := by
    have hstart : 8 * k = Variant.sha256.WB * (2 * k) := by simp only [Variant.WB]; omega
    rw [slice, hstart, digest_drop H (by omega), digest_drop H (by omega), ← List.append_assoc,
      List.take_left' (by simp [Variant.WB])]
    rfl
  have happend : wordBe (bytesBe 4 H[2 * k].toNat ++ bytesBe 4 H[2 * k + 1].toNat)
      = (H[2 * k] ++ H[2 * k + 1]).toNat := by
    rw [wordBe_append, wordBe_bytesBe_toNat rfl, wordBe_bytesBe_toNat rfl, bytesBe_length, BitVec.toNat_append,
      ← Nat.shiftLeft_add_eq_or_of_lt H[2 * k + 1].isLt, Nat.shiftLeft_eq]
    rfl
  rw [digestGroup, hslice, happend, BitVec.ofNat_toNat]
  exact BitVec.setWidth_eq _

/-- Under SHA-512 a digest group is one word (45_driver.md R226). -/
theorem digestGroup_sha512 (H : Words .sha512) {k : Nat} (hk : k < 8) : digestGroup .sha512 H k = H[k] := by
  have hslice : slice (digest .sha512 H) (8 * k) 8 = bytesBe 8 H[k].toNat := by
    rw [slice, show 8 * k = Variant.sha512.WB * k from rfl, digest_drop H hk, List.take_left' (by simp [Variant.WB])]
    rfl
  rw [digestGroup, hslice, wordBe_bytesBe_toNat rfl, BitVec.ofNat_toNat, BitVec.setWidth_eq]

/-- Settles O16: in DONE a group below DG is answered, and each group is made of whole words. -/
theorem readDigestReturnsGroup : Obligations.ReadDigestReturnsGroup := by
  refine fun s K hphase => ⟨fun H hK => ?_, fun H => ?_⟩
  · have hDG : K.toNat < Variant.sha256.DG := hK
    rw [← digestGroup_sha256 H hK]
    exact exec_readDigest_of_lt_DG (s := { s with variant := .sha256, H := H }) hphase hDG
  · have hDG : K.toNat < Variant.sha512.DG := K.isLt
    rw [← digestGroup_sha512 H K.isLt]
    exact exec_readDigest_of_lt_DG (s := { s with variant := .sha512, H := H }) hphase hDG

/-- LEN_HI holds the bits of CNT above the low 64 (10_state.md R34). -/
theorem lenHi_eq_ofNat (s : State) : lenHi s = BitVec.ofNat 64 (s.cnt.toNat / 2 ^ 64) := by
  rw [← lenHi_toNat, BitVec.ofNat_toNat, BitVec.setWidth_eq]

/-- Settles O18, register by register. -/
theorem readRegReturnsRegister : Obligations.ReadRegReturnsRegister := by
  intro s REG
  show Host.Outcome.next (s.respond true (regValue s REG)) = _
  cases REG with
  | status => rfl
  | lenLo => rfl
  | lenHi =>
    rw [regValue, lenHi_eq_ofNat]
    rfl
  | errcmd =>
    rw [regValue, ← BitVec.ofNat_toNat]
    rfl

/-- A read that completes gives its response and changes nothing else (20_memory.md R60). -/
theorem Completed.eq_respond_of_read {i : Instr} {s t : State} (h : Completed i s t)
    (hread : (∃ K, i = .readDigest K) ∨ ∃ REG, i = .readReg REG) : t = s.respond true (answerData s i) := by
  obtain ⟨K, rfl⟩ | ⟨REG, rfl⟩ := hread
  · obtain ⟨-, -, rfl⟩ := h
    rfl
  · exact h

/-- A read that completes does so again after any response. -/
theorem Completed.read_again {i : Instr} {s t : State} (h : Completed i s t)
    (hread : (∃ K, i = .readDigest K) ∨ ∃ REG, i = .readReg REG) (ok : Bool) (data : Data) :
    Completed i (s.respond ok data) ((s.respond ok data).respond true (answerData s i)) := by
  obtain ⟨K, rfl⟩ | ⟨REG, rfl⟩ := hread
  · obtain ⟨hphase, hrange, -⟩ := h
    exact ⟨hphase, hrange, rfl⟩
  · cases REG <;> rfl

/-- A command that answers ok = 1 completed. -/
theorem completed_of_ok {i : Instr} {s t : State} {data : Data} (he : exec i s = .next t)
    (hr : t.responses = s.responses ++ [⟨true, data⟩]) : Completed i s t ∧ answerData s i = data := by
  obtain ⟨code, -, rfl⟩ | hc := exec_cases he
  · simp at hr
  · have hanswer := hc.respond.1
    rw [hr] at hanswer
    exact ⟨hc, by simpa using hanswer.symm⟩

/-- Settles O22: a read that answers ok = 1 completed, and completes again. -/
theorem readsAreRepeatable : Obligations.ReadsAreRepeatable := by
  intro i s t data hread he hr
  obtain ⟨hc, rfl⟩ := completed_of_ok he hr
  obtain rfl := hc.eq_respond_of_read hread
  refine ⟨rfl, (hc.read_again hread _ _).exec_eq.trans ?_⟩
  simp [State.respond]

/-! ### The writers of each element -/

/-- H with the variant it belongs to. -/
def State.hashState (s : State) : (v : Variant) × Words v := ⟨s.variant, s.H⟩

/-- What a fault leaves as it was (60_exceptions.md R263). -/
theorem raiseFault_hashState (code : ErrCode) (cmd : Cmd) (s : State) :
    (raiseFault code cmd s).hashState = s.hashState := by
  rw [faultEntry code cmd s]
  rfl

/-- What a command other than INIT leaves as it was: each element that it does not write (10_state.md R20). -/
structure LeavesOthers (i : Instr) (s t : State) : Prop where
  cnt : (∀ n d, i ≠ .absorb n d) → t.cnt = s.cnt
  fill : (∀ n d, i ≠ .absorb n d) → i ≠ .finalize → t.fill = s.fill
  hashState : (∀ n d, i ≠ .absorb n d) → i ≠ .finalize → t.hashState = s.hashState
  padblks : i ≠ .finalize → t.padblks = s.padblks
  variant : t.variant = s.variant
  faultRecord : t.errcode = s.errcode ∧ t.errcmd = s.errcmd

theorem leavesOthers_respond (i : Instr) (s : State) (ok : Bool) (data : Data) :
    LeavesOthers i s (s.respond ok data) :=
  ⟨fun _ => rfl, fun _ _ => rfl, fun _ _ => rfl, fun _ => rfl, rfl, rfl, rfl⟩

theorem Completed.leavesOthers {i : Instr} {s t : State} (h : Completed i s t) (hinit : ∀ V, i ≠ .init V) :
    LeavesOthers i s t := by
  cases i with
  | init V => exact absurd rfl (hinit V)
  | absorb NM1 din =>
    obtain ⟨-, -, -, rfl⟩ := h
    obtain ⟨hvariant, -, hpadblks, herrcode, herrcmd, -, -⟩ := absorbBytes_frame s (messageBytes NM1 din)
    exact
      { cnt := fun hne => absurd rfl (hne NM1 din)
        fill := fun hne => absurd rfl (hne NM1 din)
        hashState := fun hne => absurd rfl (hne NM1 din)
        padblks := fun _ => hpadblks
        variant := hvariant
        faultRecord := ⟨herrcode, herrcmd⟩ }
  | finalize =>
    obtain ⟨-, -, rfl⟩ := h
    rw [foldBlocks_eq]
    exact
      { cnt := fun _ => rfl
        fill := fun _ hne => absurd rfl hne
        hashState := fun _ hne => absurd rfl hne
        padblks := fun hne => absurd rfl hne
        variant := rfl
        faultRecord := ⟨rfl, rfl⟩ }
  | readDigest K =>
    obtain ⟨-, -, rfl⟩ := h
    exact leavesOthers_respond ..
  | readReg REG =>
    obtain rfl := h
    exact leavesOthers_respond ..

/-- Only ABSORB writes BUF (10_state.md R20, 45_driver.md R223). -/
theorem Completed.buf_eq {i : Instr} {s t : State} (h : Completed i s t) (habsorb : ∀ n d, i ≠ .absorb n d) :
    t.buf = s.buf := by
  cases i with
  | init V =>
    obtain rfl := h
    rfl
  | absorb NM1 din => exact absurd rfl (habsorb NM1 din)
  | finalize =>
    obtain ⟨-, -, rfl⟩ := h
    rw [foldBlocks_eq]
    rfl
  | readDigest K =>
    obtain ⟨-, -, rfl⟩ := h
    rfl
  | readReg REG =>
    obtain rfl := h
    rfl

/-- Settles O20: a fault writes the record alone and answers ok = 0, and a command that completes writes what its
row of the inventory says. -/
theorem writersOfEachElement : Obligations.WritersOfEachElement := by
  intro i s t he
  obtain ⟨code, -, rfl⟩ | hc := exec_cases he
  · have hanswer (data : Data) : (raiseFault code i.cmd s).responses ≠ s.responses ++ [⟨true, data⟩] := by simp
    exact ⟨fun _ => raiseFault_buf .., fun _ _ => raiseFault_cnt .., fun _ _ _ =>
      ⟨raiseFault_fill .., raiseFault_hashState ..⟩, fun _ _ => raiseFault_padblks .., fun _ => raiseFault_variant ..,
      fun _ data hr => absurd hr (hanswer data), raiseFault_pending ..⟩
  · obtain ⟨-, hpending⟩ := hc.respond
    exact ⟨hc.buf_eq, fun hinit => (hc.leavesOthers hinit).cnt, fun hinit habsorb hfinalize =>
      ⟨(hc.leavesOthers hinit).fill habsorb hfinalize, (hc.leavesOthers hinit).hashState habsorb hfinalize⟩,
      fun hinit => (hc.leavesOthers hinit).padblks, fun hinit => (hc.leavesOthers hinit).variant,
      fun hinit _ _ => (hc.leavesOthers hinit).faultRecord, hpending⟩

end Sys2Proof.Machine
end

section
/-! PROOFS of the headlines: the invariants at reset (10_state.md R40), that no run stops (70_reset_and_hazards.md
R299), that unspecified storage is not observable (10_state.md R24, R38), and that a computation does not depend on
anything before its INIT (45_driver.md R223). -/

namespace Sys2Proof.Machine

/-- Settles O45, by the invariants of IDLE. -/
theorem resetMeetsInvariants : Obligations.ResetMeetsInvariants := inv_reset

/-! ### No run stops -/

/-- Under the invariants an open computation is as INIT and the ABSORB commands leave it (41_segmenter.md R105), within
the length limit. -/
theorem State.Inv.exists_open {s : State} (h : s.Inv) (hp : s.phase = .absorbing) :
    ∃ M, s.Open s.variant M ∧ M.length ≤ s.variant.MAXB := by
  obtain ⟨⟨M, hM⟩, hcnt, hpad, hcode, hcmd⟩ := (inv_iff_of_absorbing hp).mp h
  exact ⟨M, ⟨hp, rfl, hM, hpad, hcode, hcmd⟩, hM.cnt ▸ hcnt⟩

/-- Under the invariants every command answers a next state: a cause is fault entry, and without a cause the
preconditions of the command are met (42_padding.md R131). -/
theorem State.Inv.exec_progress {s : State} (h : s.Inv) (i : Instr) : ∃ t, Machine.exec i s = .next t := by
  cases hc : faultCause s i with
  | some code => exact ⟨_, exec_of_faultCause_eq_some hc⟩
  | none =>
    cases i with
    | init V => exact ⟨_, rfl⟩
    | absorb NM1 din =>
      simp only [faultCause] at hc
      split_ifs at hc with hphase hlen
      exact ⟨_, exec_absorb_of_absorbing (not_not.mp hphase) (not_lt.mp hlen) h.fill_lt din⟩
    | finalize =>
      simp only [faultCause] at hc
      split_ifs at hc with hphase
      obtain ⟨M, hM, hle⟩ := h.exists_open (not_not.mp hphase)
      exact ⟨_, hM.exec_finalize hle⟩
    | readDigest K =>
      simp only [faultCause] at hc
      split_ifs at hc with hphase hrange
      exact ⟨_, exec_readDigest_of_lt_DG (not_not.mp hphase) (not_le.mp hrange)⟩
    | readReg REG => exact ⟨_, rfl⟩

/-- Under the invariants every step answers a next state, whatever the host's next event is. -/
theorem State.Inv.step_progress {s : State} (h : s.Inv) : ∃ t, step s = .next t := by
  cases hpending : s.pending with
  | nil => exact ⟨s, step_of_pending_nil hpending⟩
  | cons event rest =>
    cases event with
    | reset inProgress => exact ⟨_, step_of_reset hpending⟩
    | command r =>
      cases hd : decode r with
      | none => exact ⟨_, step_of_decode_none hpending hd⟩
      | some i =>
        rw [step_of_decode_some hpending hd]
        exact (h.withPending rest).exec_progress i

/-- Settles O47, by induction on the number of steps: a step under the invariants goes on, and keeps them (O46). -/
theorem runsNeverStop : Obligations.RunsNeverStop := by
  intro s h n
  induction n generalizing s with
  | zero => exact ⟨s, rfl⟩
  | succ n ih =>
    obtain ⟨t, hstep⟩ := h.step_progress
    rw [run_succ hstep]
    exact ih t (stepKeepsInvariants s t h hstep)

/-! ### The storage that no rule reads -/

theorem State.SameVisible.refl (s : State) : s.SameVisible s :=
  ⟨s.H, s.buf, rfl, fun _ => rfl, fun _ _ _ => rfl⟩

/-- The host sees one list of responses in two states that differ only in unspecified storage. -/
theorem State.SameVisible.responses_eq {s t : State} (h : s.SameVisible t) : t.responses = s.responses := by
  obtain ⟨H, buf, rfl, -, -⟩ := h
  rfl

theorem State.SameVisible.pending_eq {s t : State} (h : s.SameVisible t) : t.pending = s.pending := by
  obtain ⟨H, buf, rfl, -, -⟩ := h
  rfl

theorem State.SameVisible.withPending {s t : State} (h : s.SameVisible t) (p : List HostEvent) :
    (s.withPending p).SameVisible (t.withPending p) := by
  obtain ⟨H, buf, rfl, hH, hbuf⟩ := h
  exact ⟨H, buf, rfl, hH, hbuf⟩

theorem State.SameVisible.respond {s t : State} (h : s.SameVisible t) (ok : Bool) (data : Data) :
    (s.respond ok data).SameVisible (t.respond ok data) := by
  obtain ⟨H, buf, rfl, hH, hbuf⟩ := h
  exact ⟨H, buf, rfl, hH, hbuf⟩

/-- A fault reads neither H nor BUF, and in ERROR neither is specified. -/
theorem State.SameVisible.raiseFault {s t : State} (h : s.SameVisible t) (code : ErrCode) (cmd : Cmd) :
    (raiseFault code cmd s).SameVisible (raiseFault code cmd t) := by
  obtain ⟨H, buf, rfl, -, -⟩ := h
  simp only [faultEntry code cmd]
  exact ⟨H, buf, rfl, by simp, by simp⟩

/-- INIT specifies H, and leaves no byte of BUF to be read (45_driver.md R222, R223). -/
theorem start_sameVisible {s t : State} (hp : t.pending = s.pending) (hr : t.responses = s.responses) (V : Variant) :
    (s.start V).SameVisible (t.start V) := by
  refine ⟨H0 V, t.buf, ?_, fun _ => rfl, fun _ j hj => absurd hj (Nat.not_lt_zero j)⟩
  simp [State.start, hp, hr]

/-- Equal bytes below `n` are equal parts of BUF below `n`. -/
theorem bufPrefix_congr {s t : State} {n : Nat} (h : ∀ j, j < n → t.buf[j]? = s.buf[j]?) :
    t.bufPrefix n = s.bufPrefix n := by
  refine List.ext_getElem? fun j => ?_
  by_cases hj : j < n
  · rw [bufPrefix_getElem? _ _ _ hj, bufPrefix_getElem? _ _ _ hj, h j hj]
  · simp [State.bufPrefix, hj]

/-- `t` differs from `s` only in bytes of BUF from index `n` on. -/
def State.SameBelow (s t : State) (n : Nat) : Prop :=
  ∃ buf : Vector Byte 128, t = { s with buf := buf } ∧ ∀ j, j < n → buf[j]? = s.buf[j]?

/-- In an open computation H is specified, and so are the bytes of BUF below FILL. -/
theorem sameVisible_iff_sameBelow {s t : State} (hp : s.phase = .absorbing) :
    s.SameVisible t ↔ s.SameBelow t s.fill.toNat := by
  constructor
  · rintro ⟨H, buf, rfl, hH, hbuf⟩
    obtain rfl := hH (.inl hp)
    refine ⟨buf, rfl, fun j hj => ?_⟩
    have hj128 : j < 128 := hj.trans s.fill.isLt
    simpa [hj128] using hbuf hp j hj
  · rintro ⟨buf, rfl, hbuf⟩
    refine ⟨s.H, buf, rfl, fun _ => rfl, fun _ j hj => ?_⟩
    have hj128 : j < 128 := hj.trans s.fill.isLt
    simpa [hj128] using hbuf j hj

theorem State.SameBelow.mono {s t : State} {m n : Nat} (h : s.SameBelow t n) (hmn : m ≤ n) : s.SameBelow t m := by
  obtain ⟨buf, rfl, hbuf⟩ := h
  exact ⟨buf, rfl, fun j hj => hbuf j (hj.trans_le hmn)⟩

theorem State.SameBelow.withFill {s t : State} {n : Nat} (h : s.SameBelow t n) (f : BitVec 7) :
    (s.withFill f).SameBelow (t.withFill f) n := by
  obtain ⟨buf, rfl, hbuf⟩ := h
  exact ⟨buf, rfl, hbuf⟩

/-- The byte stored at FILL is the same in both states. -/
theorem State.SameBelow.storeByte {s t : State} (h : s.SameBelow t s.fill.toNat) (b : Byte) :
    (s.storeByte b).SameBelow (t.storeByte b) (s.fill.toNat + 1) := by
  obtain ⟨buf, rfl, hbuf⟩ := h
  refine ⟨buf.set s.fill.toNat b s.fill.isLt, rfl, fun j hj => ?_⟩
  rw [State.storeByte_buf]
  obtain hlt | rfl := Nat.lt_succ_iff_lt_or_eq.mp hj
  · rw [Vector.getElem?_set_ne _ hlt.ne', Vector.getElem?_set_ne _ hlt.ne', hbuf j hlt]
  · rw [Vector.getElem?_set_self, Vector.getElem?_set_self]

/-- A full block is folded from the bytes below B. -/
theorem State.SameBelow.foldFullBlock {s t : State} (h : s.SameBelow t s.variant.B) :
    s.foldFullBlock.SameBelow t.foldFullBlock s.variant.B := by
  obtain ⟨buf, rfl, hbuf⟩ := h
  refine ⟨buf, ?_, hbuf⟩
  have hblock : State.bufPrefix { s with buf := buf } s.variant.B = s.bufPrefix s.variant.B := bufPrefix_congr hbuf
  simp only [State.foldFullBlock, State.foldBlock, State.withFill, hblock]

/-- One message byte keeps the two states alike below FILL (41_segmenter.md R102, R103). -/
theorem State.SameBelow.absorbByte {s t : State} (h : s.SameBelow t s.fill.toNat) (b : Byte) :
    (s.absorbByte b).SameBelow (t.absorbByte b) (s.absorbByte b).fill.toNat := by
  have hstored := h.storeByte b
  obtain ⟨buf, rfl, -⟩ := h
  by_cases hfull : s.fill.toNat + 1 = s.variant.B
  · simp only [State.absorbByte, if_pos hfull]
    rw [hfull] at hstored
    exact hstored.foldFullBlock.mono (Nat.zero_le _)
  · simp only [State.absorbByte, if_neg hfull]
    exact (hstored.mono (by simp; omega)).withFill _

theorem State.SameBelow.absorbBytes {s t : State} (h : s.SameBelow t s.fill.toNat) (bs : List Byte) :
    (s.absorbBytes bs).SameBelow (t.absorbBytes bs) (s.absorbBytes bs).fill.toNat := by
  induction bs generalizing s t with
  | nil => exact h
  | cons b bs ih => exact ih (h.absorbByte b)

/-- In DONE, too, H is specified. -/
theorem State.SameVisible.of_done {s t : State} (h : s.SameVisible t) (hp : s.phase = .done) :
    ∃ buf : Vector Byte 128, t = { s with buf := buf } := by
  obtain ⟨H, buf, rfl, hH, -⟩ := h
  obtain rfl := hH (.inr hp)
  exact ⟨buf, rfl⟩

/-- No cause of a fault is read from unspecified storage. -/
theorem State.SameVisible.faultCause_eq {s t : State} (h : s.SameVisible t) (i : Instr) :
    faultCause t i = faultCause s i := by
  obtain ⟨H, buf, rfl, -, -⟩ := h
  rfl

/-- FINALIZE folds the bytes below FILL, and leaves H specified in DONE. -/
theorem State.SameBelow.finish_tail {s t : State} (h : s.SameBelow t s.fill.toNat) :
    ((s.foldBlocks s.tail).finish (BitVec.ofNat 2 s.tail.length)).SameVisible
      ((t.foldBlocks t.tail).finish (BitVec.ofNat 2 t.tail.length)) := by
  obtain ⟨buf, rfl, hbuf⟩ := h
  have htail : State.tail { s with buf := buf } = s.tail := by
    simp only [State.tail, bufPrefix_congr (s := s) (t := { s with buf := buf }) hbuf]
  rw [htail, foldBlocks_eq, foldBlocks_eq]
  exact ⟨foldCompress s.variant s.H s.tail, buf, rfl, fun _ => rfl, nofun⟩

/-- A command that completes in one of two such states completes in the other, with the same answer. -/
theorem State.SameVisible.completed {s t s' : State} {i : Instr} (h : s.SameVisible t) (hc : Completed i s s') :
    ∃ t', Completed i t t' ∧ s'.SameVisible t' := by
  cases i with
  | init V =>
    obtain rfl := hc
    exact ⟨_, rfl, (start_sameVisible h.pending_eq h.responses_eq V).respond true 0⟩
  | absorb NM1 din =>
    obtain ⟨hp, hlen, hfill, rfl⟩ := hc
    have hbelow := (sameVisible_iff_sameBelow hp).mp h
    have habsorb := hbelow.absorbBytes (messageBytes NM1 din)
    obtain ⟨-, hphase, -⟩ := absorbBytes_frame s (messageBytes NM1 din)
    obtain ⟨buf, rfl, -⟩ := hbelow
    exact ⟨_, ⟨hp, hlen, hfill, rfl⟩,
      ((sameVisible_iff_sameBelow (hphase.trans hp)).mpr habsorb).respond true 0⟩
  | finalize =>
    obtain ⟨hp, hpad, rfl⟩ := hc
    have hbelow := (sameVisible_iff_sameBelow hp).mp h
    have hfinish := hbelow.finish_tail
    obtain ⟨buf, rfl, -⟩ := hbelow
    exact ⟨_, ⟨hp, hpad, rfl⟩, hfinish.respond true 0⟩
  | readDigest K =>
    obtain ⟨hp, hrange, rfl⟩ := hc
    have hrespond := h.respond true (digestGroup s.variant s.H K.toNat)
    obtain ⟨buf, rfl⟩ := h.of_done hp
    exact ⟨_, ⟨hp, hrange, rfl⟩, hrespond⟩
  | readReg REG =>
    obtain rfl := hc
    have hreg : regValue t REG = regValue s REG := by
      obtain ⟨H, buf, rfl, -, -⟩ := h
      cases REG <;> rfl
    exact ⟨_, rfl, hreg ▸ h.respond true _⟩

/-- Two such states have alike next states under every command: the cause of a fault is the same, and without one
the command completes in both. -/
theorem State.SameVisible.exec {s t s' : State} {i : Instr} (h : s.SameVisible t) (he : exec i s = .next s') :
    ∃ t', Machine.exec i t = .next t' ∧ s'.SameVisible t' := by
  cases hc : faultCause s i with
  | some code =>
    obtain rfl := Host.Outcome.next.inj ((exec_of_faultCause_eq_some hc).symm.trans he)
    exact ⟨_, exec_of_faultCause_eq_some ((h.faultCause_eq i).trans hc), h.raiseFault code i.cmd⟩
  | none =>
    obtain ⟨t', hc', hs'⟩ := h.completed (completed_of_faultCause_eq_none hc he)
    exact ⟨t', hc'.exec_eq, hs'⟩

theorem State.SameVisible.step {s t s' : State} (h : s.SameVisible t) (hstep : step s = .next s') :
    ∃ t', Machine.step t = .next t' ∧ s'.SameVisible t' := by
  rcases step_cases hstep with
    ⟨hp, rfl⟩ | ⟨c, rest, hp, rfl⟩ | ⟨r, rest, hp, hd, rfl⟩ | ⟨r, rest, i, hp, hd, he⟩
  · exact ⟨t, step_of_pending_nil (h.pending_eq.trans hp), h⟩
  · refine ⟨_, step_of_reset (h.pending_eq.trans hp), ?_⟩
    rw [h.responses_eq]
    exact State.SameVisible.refl _
  · exact ⟨_, step_of_decode_none (h.pending_eq.trans hp) hd, (h.withPending rest).raiseFault _ _⟩
  · obtain ⟨t', he', hs'⟩ := (h.withPending rest).exec he
    exact ⟨t', (step_of_decode_some (h.pending_eq.trans hp) hd).trans he', hs'⟩

/-- Settles O50, by the cases of a step. -/
theorem staleStateUnobservable : Obligations.StaleStateUnobservable := by
  intro s t s' h hstep
  obtain ⟨t', hstep', hs'⟩ := h.step hstep
  exact ⟨t', hstep', hs', hs'.responses_eq⟩

/-! ### Nothing before INIT is observable -/

/-- A run that ends in a next state began with a step that did. -/
theorem exists_step_of_run_succ {s t : State} {n : Nat} (h : Host.Core.run core (n + 1) s = .next t) :
    ∃ u, step s = .next u ∧ Host.Core.run core n u = .next t := by
  cases hstep : core.step s with
  | next u =>
    rw [run_succ hstep] at h
    exact ⟨u, hstep, h⟩
  | fault r => simp [Host.Core.run, hstep] at h
  | refused r => simp [Host.Core.run, hstep] at h

/-- A run keeps the difference in unspecified storage. -/
theorem State.SameVisible.run {s t s' : State} {n : Nat} (h : s.SameVisible t)
    (hrun : Host.Core.run core n s = .next s') : ∃ t', Host.Core.run core n t = .next t' ∧ s'.SameVisible t' := by
  induction n generalizing s t with
  | zero =>
    obtain rfl : s = s' := Host.Outcome.next.inj hrun
    exact ⟨t, rfl, h⟩
  | succ n ih =>
    obtain ⟨u, hstep, hrun⟩ := exists_step_of_run_succ hrun
    obtain ⟨w, hstep', hw⟩ := h.step hstep
    rw [run_succ hstep']
    exact ih hw hrun

/-- Settles O51: INIT leaves two states that differ only in bytes of BUF that no rule reads, and so do the steps
after it (O50). -/
theorem computationsAreIndependent : Obligations.ComputationsAreIndependent := by
  intro s t v rest hs hpending hresponses n s' hrun
  have hstart : ((s.withPending rest).start v).SameVisible ((t.withPending rest).start v) :=
    start_sameVisible (s := s.withPending rest) (t := t.withPending rest) rfl hresponses v
  rw [run_succ (step_encode hs)] at hrun
  obtain ⟨t', hrun', hs'⟩ := (hstart.respond true 0).run hrun
  exact ⟨t', (run_succ (step_encode (hpending.trans hs)) n).trans hrun', hs'.responses_eq⟩

end Sys2Proof.Machine
end
